-- ==== Sys2Proof/Word.lean ====
section
/-! DEFINITION. The word types of ESL-CORE (spec/00_scope.md R8) and the two rings' names (spec/10_state.md R23). -/

namespace Sys2Proof

/-- A byte: 8 bits, unsigned (R8). -/
abbrev Byte := BitVec 8

/-- A count, capacity, occupancy or cursor: 16 bits, unsigned (R8). -/
abbrev Half := BitVec 16

/-- A command, operand, header, result or register word: 32 bits (R8). -/
abbrev Word := BitVec 32

/-- The two rings (R23): `input` is IN, which the producer fills; `output` is OUT. -/
inductive RingId where
  | input
  | output
  deriving DecidableEq, Repr

end Sys2Proof
end

