-- ==== Sys2Proof/Syntax.lean ====
section
/-! DEFINITION. The transactions of ESL-CORE as syntax: the two raw formats of spec/30_encoding.md R90 and one constructor
of `Instr` per row of spec/opcode_table.json. -/

namespace Sys2Proof

/-- A Format C transaction as the consumer puts it on its port (R90, R91): command word, operand word, data bytes. -/
structure FormatC where
  cmd : Word
  opa : Word
  din : List Byte
  deriving DecidableEq, Repr

/-- A Format P transaction as the producer puts it on its port (R90, R95, R96): header word and data bytes. -/
structure FormatP where
  ph   : Word
  data : List Byte
  deriving DecidableEq, Repr

/-- The eleven instructions of the opcode map (R97). A count that the format also gives as the length of a byte list is
carried by that list alone (`bufPush`, `rx`), so the two cannot differ. -/
inductive Instr where
  /-- INIT (R210): input capacity IMM, and the whole operand word, whose bits 15:0 are the output capacity. -/
  | init (ic : Half) (opa : Word)
  /-- CSR_READ (R211): register number. -/
  | csrRead (r : Byte)
  /-- CSR_WRITE (R212): register number, value. -/
  | csrWrite (r : Byte) (v : Word)
  /-- BUF_PUSH (R131): the bytes DIN to append to OUT. -/
  | bufPush (din : List Byte)
  /-- BUF_POP (R132): ring by SEL, count. -/
  | bufPop (b : RingId) (n : Half)
  /-- BUF_PEEK (R133): ring by SEL, count. -/
  | bufPeek (b : RingId) (n : Half)
  /-- BUF_DISCARD (R134): ring by SEL, count. -/
  | bufDiscard (b : RingId) (n : Half)
  /-- READ_RAW (R180): length. -/
  | readRaw (n : Half)
  /-- READ_PKT (R181): destination capacity. -/
  | readPkt (dst : Half)
  /-- READ_CMD (R186): destination capacity. -/
  | readCmd (dst : Half)
  /-- RX (R160), with a well-formed header: the span of bytes received. -/
  | rx (data : List Byte)
  deriving DecidableEq, Repr

end Sys2Proof
end

