-- ==== Sys2Proof/WellFormed.lean ====
section
/-! DEFINITION. Which terms of `Instr` are instructions of the hardware: a data list must fit the 16-bit count field that
states its length (spec/30_encoding.md R92, R94 to R96; spec/20_memory.md R70). Every other operand is bounded by its type. -/

namespace Sys2Proof

/-- The data list of BUF_PUSH and RX is at most 65535 bytes, the largest value of IMM and COUNT (R70, R91, R95). -/
def Instr.wellFormed : Instr → Bool
  | .bufPush din => decide (din.length ≤ 65535)
  | .rx data => decide (data.length ≤ 65535)
  | .init _ _ | .csrRead _ | .csrWrite _ _ | .bufPop _ _ | .bufPeek _ _ | .bufDiscard _ _
  | .readRaw _ | .readPkt _ | .readCmd _ => true

end Sys2Proof
end

