-- ==== Sys2Proof/Decode.lean ====
section
/-! DEFINITION. Decoding and encoding of transactions (spec/30_encoding.md R90 to R105): total, rejecting by name. -/

namespace Sys2Proof

/-! ### Fields of the words -/

/-- OP, CMD[31:24] (R92). -/
def opField (w : Word) : Byte := w.extractLsb' 24 8

/-- R, CMD[23:16] (R92). -/
def rField (w : Word) : Byte := w.extractLsb' 16 8

/-- IMM, CMD[15:0] (R92); COUNT, PH[15:0] (R95). Always zero-extended where it is widened (R105). -/
def immField (w : Word) : Half := w.extractLsb' 0 16

/-- PH[31:16], which only 0x4000 makes a legal producer header (R95, R100). -/
def prefixField (w : Word) : Half := w.extractLsb' 16 16

/-- SEL, R[0]: 0 selects IN, 1 selects OUT (R92, R130). -/
def selRing (r : Byte) : RingId := if r.getLsbD 0 then .output else .input

/-- The R field that carries SEL for a ring, R[7:1] zero (R92). -/
def ringSel : RingId → Byte
  | .input => 0
  | .output => 1

/-- A command word built from its three fields, (OP << 24) | (R << 16) | IMM (R92, R106). -/
def cmdWord (op r : Byte) (imm : Half) : Word :=
  op.setWidth 32 <<< 24 ||| r.setWidth 32 <<< 16 ||| imm.setWidth 32

/-! ### Transactions -/

/-- A transaction of either port (R90). -/
inductive Txn where
  | consumer (c : FormatC)
  | producer (p : FormatP)
  deriving DecidableEq, Repr

/-- Why a transaction selects no row of the opcode map. -/
inductive Reject where
  /-- The data list has not the length its word states: no transaction of the hardware (R94, R96; U18, U19). -/
  | notATransaction
  /-- OP is not one of the ten consumer opcodes (R99). -/
  | illegalOpcode
  /-- A reserved field is non-zero, or BUF_PUSH has SEL = 0 (R98). -/
  | reservedField
  /-- PH[31:16] is not 0x4000 (R100). -/
  | malformedHeader
  deriving DecidableEq, Repr

/-- How many bytes DIN carries: IMM when OP = BUF_PUSH, none for every other opcode (R94). -/
def dinLength (cmd : Word) : Nat := if opField cmd = 0x10 then (immField cmd).toNat else 0

/-- `decide (l.length = n)`, counted down so that evaluating it on a long list stays shallow. -/
def hasLength : List Byte → Nat → Bool
  | [], 0 => true
  | _ :: l, n + 1 => hasLength l n
  | [], _ + 1 => false
  | _ :: _, 0 => false

/-- R94: the length condition the consumer agent must meet. -/
def FormatC.wellFormed (c : FormatC) : Bool := hasLength c.din (dinLength c.cmd)

/-- R96: the length condition the producer agent must meet, whether or not PH is malformed. -/
def FormatP.wellFormed (p : FormatP) : Bool := hasLength p.data (immField p.ph).toNat

/-- The length condition of a transaction (R94, R96). -/
def Txn.wellFormed : Txn → Bool
  | .consumer c => c.wellFormed
  | .producer p => p.wellFormed

/-- A row whose opcode matches: its instruction if its reserved fields are zero (R98). -/
def row (reservedOk : Bool) (i : Instr) : Except Reject Instr := if reservedOk then .ok i else .error .reservedField

/-- R97 to R99: the row a command word selects, its operands pulled out; the opcode is checked before the reserved field
(spec/60_exceptions.md R243 items 1 and 2). -/
def decodeCommand (c : FormatC) : Except Reject Instr :=
  let op := opField c.cmd
  let r := rField c.cmd
  let imm := immField c.cmd
  if op = 0x01 then row (r == 0) (.init imm c.opa)
  else if op = 0x02 then row (imm == 0) (.csrRead r)
  else if op = 0x03 then row (imm == 0) (.csrWrite r c.opa)
  else if op = 0x10 then row (r == 1) (.bufPush c.din)
  else if op = 0x11 then row (r.extractLsb' 1 7 == 0) (.bufPop (selRing r) imm)
  else if op = 0x12 then row (r.extractLsb' 1 7 == 0) (.bufPeek (selRing r) imm)
  else if op = 0x13 then row (r.extractLsb' 1 7 == 0) (.bufDiscard (selRing r) imm)
  else if op = 0x20 then row (r == 0) (.readRaw imm)
  else if op = 0x21 then row (r == 0) (.readPkt imm)
  else if op = 0x22 then row (r == 0) (.readCmd imm)
  else .error .illegalOpcode

/-- R95, R100: the only producer row is RX. -/
def decodeHeader (p : FormatP) : Except Reject Instr :=
  if prefixField p.ph = 0x4000 then .ok (.rx p.data) else .error .malformedHeader

/-- The decoder, total on every transaction of either port. -/
def decode (t : Txn) : Except Reject Instr :=
  if t.wellFormed then
    match t with
    | .consumer c => decodeCommand c
    | .producer p => decodeHeader p
  else .error .notATransaction

/-! ### Encoding -/

/-- The transaction that issues an instruction, as spec/30_encoding.md R106 writes it: the words of R97, OPA = 0 where the
opcode does not read it. -/
def encode : Instr → Txn
  | .init ic opa => .consumer ⟨cmdWord 0x01 0 ic, opa, []⟩
  | .csrRead r => .consumer ⟨cmdWord 0x02 r 0, 0, []⟩
  | .csrWrite r v => .consumer ⟨cmdWord 0x03 r 0, v, []⟩
  | .bufPush din => .consumer ⟨cmdWord 0x10 1 (BitVec.ofNat 16 din.length), 0, din⟩
  | .bufPop b n => .consumer ⟨cmdWord 0x11 (ringSel b) n, 0, []⟩
  | .bufPeek b n => .consumer ⟨cmdWord 0x12 (ringSel b) n, 0, []⟩
  | .bufDiscard b n => .consumer ⟨cmdWord 0x13 (ringSel b) n, 0, []⟩
  | .readRaw n => .consumer ⟨cmdWord 0x20 0 n, 0, []⟩
  | .readPkt dst => .consumer ⟨cmdWord 0x21 0 dst, 0, []⟩
  | .readCmd dst => .consumer ⟨cmdWord 0x22 0 dst, 0, []⟩
  | .rx data => .producer ⟨cmdWord 0x40 0 (BitVec.ofNat 16 data.length), data⟩

/-- The first word of a transaction: CMD or PH. -/
def Txn.word : Txn → Word
  | .consumer c => c.cmd
  | .producer p => p.ph

/-! ### The opcode table's words -/

/-- The transaction whose first word is `w`, its operand word 0 and its data bytes 0: a word with bits 31:16 = 0x4000 goes
to the producer port, whose only row that is, every other word to the consumer port (DESIGN CHOICE, log entry 7). -/
def txnOfWord (nbits w : Nat) : Txn :=
  let x := BitVec.ofNat 32 (w % 2 ^ nbits)
  if prefixField x = 0x4000 then .producer ⟨x, List.replicate (immField x).toNat 0⟩
  else .consumer ⟨x, 0, List.replicate (dinLength x) 0⟩

/-- The instruction the decoder reads from a word numbered as spec/opcode_table.json numbers it. -/
def decodeTableWord (nbits w : Nat) : Option Instr :=
  match decode (txnOfWord nbits w) with
  | .ok i => some i
  | .error _ => none

end Sys2Proof
end

