-- ==== Sys2Proof/Config.lean ====
section
/-! DEFINITION. What an implementation of ESL-CORE fixes: the two depth parameters of spec/00_scope.md R6. They are carried
in `State.params`, so that a statement about every state is a statement about every pair of depths. -/

namespace Sys2Proof

/-- The implementation parameters IN_DEPTH and OUT_DEPTH (R6). A 16-bit field already bounds each by 65535. -/
structure Params where
  inDepth  : Half
  outDepth : Half
  deriving DecidableEq, Repr

/-- R6: each depth is at least 1 (and at most 65535, which the field's width says). -/
structure Params.Legal (p : Params) : Prop where
  one_le_inDepth  : 1 ≤ p.inDepth.toNat
  one_le_outDepth : 1 ≤ p.outDepth.toNat

/-- The depths `State.reset` is built with. DESIGN CHOICE (unsafe, log entry 2): the spec leaves both open; 64 and 64 are
the values spec/95_test_vectors.md assumes. No statement about a reset state rests on them: those are made for
`State.powerOn` with any legal parameters. -/
def Config.params : Params := { inDepth := 64, outDepth := 64 }

end Sys2Proof
end

