-- ==== Sys2Proof/Machine/State.lean ====
section
/-! DEFINITION. The state of ESL-CORE (spec/10_state.md R20), the outputs of its transactions, the names of faults and
refusals, and the state after power-on reset (spec/70_reset_and_hazards.md R270). -/

namespace Sys2Proof.Machine

/-- A ring's backing store (R24): (index, byte) pairs with strictly rising indices. A cell not listed holds no value, which
R24 allows ("a model may represent a cell as 'no value'"); log entry 3. -/
abbrev Memory := List Host.Cell

/-- One circular byte buffer (R24 to R28). -/
structure Ring where
  /-- STORE (R24). -/
  store : Memory
  /-- CAP, the logical capacity (R25). -/
  cap : Half
  /-- OCC, the occupied count (R26). -/
  occ : Half
  /-- RD, the read cursor (R27). -/
  rd : Half
  /-- WR, the write cursor (R28). -/
  wr : Half
  deriving DecidableEq, Repr

/-- The values MODE.MODE can hold (R30); 3 is never held (spec/93 U16). -/
inductive SerialMode where
  | transparent
  | command
  | binary
  deriving DecidableEq, Repr

/-- The values PKTDEF.LW can hold (R32); 3 is never held (spec/93 U16). -/
inductive LenWidth where
  /-- One byte. -/
  | one
  /-- Two bytes, least significant first. -/
  | twoLsbFirst
  /-- Two bytes, most significant first. -/
  | twoMsbFirst
  deriving DecidableEq, Repr

/-- PKTDEF (R32). -/
structure PacketDef where
  hdr : Byte
  ofs : Byte
  var : Bool
  lw  : LenWidth
  cfg : Bool
  deriving DecidableEq, Repr

/-- The registers of the register map (R41), one constructor per listed number. -/
inductive Csr where
  | mode | aten | pktdef | pktpay | term | even | status
  | incap | inocc | inrd | inwr | outcap | outocc | outrd | outwr
  | indepth | outdepth
  deriving DecidableEq, Repr

/-- The events of the event output (spec/60_exceptions.md R244). -/
inductive Event where
  | raw | pkt | cmd | ovf
  deriving DecidableEq, Repr

/-- The names of the status codes (spec/30_encoding.md R102); `Status.code` (Ops.lean) gives each its 4-bit ST. The reserved
codes 6 to 15 have no name: they are never produced (U17). -/
inductive Status where
  | ok | insuffData | insuffSpace | oversize | param | illegal
  deriving DecidableEq, Repr

/-- What the consumer port returns (R90, R91): ST, 4 bits; RES, 32 bits; DOUT. -/
structure Response where
  st   : BitVec 4
  res  : Word
  dout : List Byte
  deriving DecidableEq, Repr

/-- The output of one executed transaction: the consumer's response (none on the producer port, which returns nothing,
R90) and the events emitted (R244). -/
structure Output where
  response : Option Response
  events   : List Event
  deriving DecidableEq, Repr

/-- The agents (spec/00_scope.md R7). -/
inductive Agent where
  | producer
  | consumer
  /-- An event receiver, which never drives the block. -/
  | receiver
  deriving DecidableEq, Repr

/-- The whole state. The ten fields `inRing` to `perr` are R20's list; `params` and the last four are the model's own
(log entries 1, 2, 4). -/
structure State where
  /-- IN_DEPTH and OUT_DEPTH (R6), which no step changes. -/
  params : Params
  /-- The ring IN. -/
  inRing : Ring
  /-- The ring OUT. -/
  outRing : Ring
  /-- MODE.MODE (R30). -/
  mode : SerialMode
  /-- ATEN.ATEN (R31). -/
  aten : Bool
  /-- PKTDEF (R32). -/
  pktdef : PacketDef
  /-- PKTPAY.PAY (R34). -/
  pktpay : Half
  /-- TERM.TERM (R35). -/
  term : Byte
  /-- EVEN: EN_RAW, EN_PKT, EN_CMD, EN_OVF from bit 0 up (R36). -/
  even : BitVec 4
  /-- STATUS.OVF (R37). -/
  ovf : Bool
  /-- STATUS.PERR (R38). -/
  perr : Bool
  /-- Whose turn is next in the serial order (spec/20_memory.md R71); an input of the model (U10). -/
  schedule : List Agent
  /-- The consumer's transactions not yet executed, in the order issued. -/
  commands : List FormatC
  /-- The producer's transactions not yet executed, in the order issued. -/
  spans : List FormatP
  /-- The outputs of the executed transactions, in serial order. -/
  trace : List Output
  deriving DecidableEq, Repr

/-- Why a step stops although the hardware would not: each is raised only in a state that no run from reset reaches
(Safety.lean's invariant excludes it), so each is safe. -/
inductive Fault where
  /-- A cell index at or above CAP or DEPTH: raised by the ring primitives (spec/20_memory.md R61). Safe. -/
  | noSuchCell
  /-- A cell no RingPush has written: raised by RingPeek (R24, R76). Safe. -/
  | unwrittenCell
  /-- A cursor taken modulo a capacity of 0: raised by the ring primitives (R65). Safe. -/
  | zeroCapacity
  /-- A length field that does not lie inside the header: raised by READ_PKT (R33, R184). Safe. -/
  | lengthFieldOutsideHeader
  deriving DecidableEq, Repr

/-- Why a step gives a transaction no meaning. -/
inductive Refusal where
  /-- An instruction the model does not have yet, by its mnemonic: raised by exec's arms only. Safe. -/
  | notModelled (mnemonic : String)
  /-- A data list whose length is not what its word states: raised by the step ("a model refuses to construct it",
  spec/30_encoding.md R94, R96). Safe. -/
  | notATransaction
  deriving DecidableEq, Repr

/-- A ring after power-on reset: CAP, OCC, RD and WR are 0 (R25 to R28), no cell holds a value (R24). -/
def Ring.empty : Ring := { store := [], cap := 0, occ := 0, rd := 0, wr := 0 }

/-- Power-on reset of a block built with parameters `p` (R270): everything zero except TERM = 0x0D; nothing is pending and
nothing has been output. -/
def State.powerOn (p : Params) : State where
  params := p
  inRing := .empty
  outRing := .empty
  mode := .transparent
  aten := false
  pktdef := { hdr := 0, ofs := 0, var := false, lw := .one, cfg := false }
  pktpay := 0
  term := 0x0D
  even := 0
  ovf := false
  perr := false
  schedule := []
  commands := []
  spans := []
  trace := []

/-- The machine right after reset, with the depths Config names. -/
def State.reset : State := State.powerOn Config.params

end Sys2Proof.Machine
end

