-- ==== Sys2Proof/Machine/Ops.lean ====
section
/-! DEFINITION. The shared operations: the ring primitives of spec/20_memory.md R61 to R65, how a transaction ends
(spec/00_scope.md R11), the taking of turns (spec/20_memory.md R71), and what a word that selects no row does
(spec/30_encoding.md R98 to R100). ESL-CORE has no trap to take or return from (spec/60_exceptions.md R240). -/

namespace Sys2Proof.Machine

/-- The three outcomes of a step on this machine. -/
abbrev Result := Host.Outcome State Fault Refusal

/-! ### Store cells (R24, R61) -/

/-- The byte in a cell, or none where the cell holds no value. -/
def Memory.read : Memory → Nat → Option Byte
  | [], _ => none
  | (k, v) :: rest, a => if k = a then some v else Memory.read rest a

/-- Write a byte to a cell, keeping the indices strictly rising. -/
def Memory.write : Memory → Nat → Byte → Memory
  | [], a, v => [(a, v)]
  | (k, w) :: rest, a, v =>
    if a < k then (a, v) :: (k, w) :: rest
    else if a = k then (a, v) :: rest
    else (k, w) :: Memory.write rest a v

/-- The canonical form: indices strictly rising. (No entry can equal what an unlisted cell reads as, which is no value.) -/
def Memory.wf : Memory → Bool
  | [] => true
  | (k, _) :: rest => rest.all (fun c => decide (k < c.1)) && Memory.wf rest

/-- MemRead(b, i, 1), for an index below the capacity (R61). -/
def Ring.memRead (depth : Nat) (r : Ring) (i : Nat) : Except Fault Byte :=
  if i < r.cap.toNat ∧ i < depth then
    match r.store.read i with
    | some v => .ok v
    | none => .error .unwrittenCell
  else .error .noSuchCell

/-- MemWrite(b, i, 1, v), for an index below the capacity (R61). -/
def Ring.memWrite (depth : Nat) (r : Ring) (i : Nat) (v : Byte) : Except Fault Ring :=
  if i < r.cap.toNat ∧ i < depth then .ok { r with store := r.store.write i v }
  else .error .noSuchCell

/-! ### Ring primitives (R62 to R65) -/

/-- `x mod CAP`; never computed with a capacity of 0 (R65). -/
def cellIndex (cap x : Nat) : Except Fault Nat :=
  if cap = 0 then .error .zeroCapacity else .ok (x % cap)

/-- The free space CAP - OCC of a ring. -/
def Ring.free (r : Ring) : Nat := r.cap.toNat - r.occ.toNat

/-- The writes of RingPush's loop, from its index `i` on (R62). -/
def Ring.writeFrom (depth : Nat) : Ring → Nat → List Byte → Except Fault Ring
  | r, _, [] => .ok r
  | r, i, v :: vs => do
    let a ← cellIndex r.cap.toNat (r.wr.toNat + i)
    let r' ← r.memWrite depth a v
    Ring.writeFrom depth r' (i + 1) vs

/-- RingPush(b, D) (R62): the callers have checked that D fits. -/
def Ring.push (depth : Nat) (r : Ring) (d : List Byte) : Except Fault Ring :=
  if d = [] then .ok r
  else do
    let r' ← Ring.writeFrom depth r 0 d
    let w ← cellIndex r.cap.toNat (r.wr.toNat + d.length)
    .ok { r' with wr := BitVec.ofNat 16 w, occ := BitVec.ofNat 16 (r.occ.toNat + d.length) }

/-- The reads of RingPeek, `n` of them from index `i` on (R63). -/
def Ring.readFrom (depth : Nat) (r : Ring) : Nat → Nat → Except Fault (List Byte)
  | _, 0 => .ok []
  | i, n + 1 => do
    let a ← cellIndex r.cap.toNat (r.rd.toNat + i)
    let v ← r.memRead depth a
    let rest ← Ring.readFrom depth r (i + 1) n
    .ok (v :: rest)

/-- RingPeek(b, n) (R63): the n oldest bytes, oldest first. -/
def Ring.peek (depth : Nat) (r : Ring) (n : Nat) : Except Fault (List Byte) := Ring.readFrom depth r 0 n

/-- RingDrop(b, n) (R64): the n oldest bytes removed. -/
def Ring.drop (r : Ring) (n : Nat) : Except Fault Ring :=
  if n = 0 then .ok r
  else do
    let a ← cellIndex r.cap.toNat (r.rd.toNat + n)
    .ok { r with rd := BitVec.ofNat 16 a, occ := BitVec.ofNat 16 (r.occ.toNat - n) }

/-! ### The two rings of a state -/

/-- Ring b of the state (R23). -/
def State.ring (s : State) : RingId → Ring
  | .input => s.inRing
  | .output => s.outRing

/-- The state with ring b replaced. -/
def State.setRing (s : State) (b : RingId) (r : Ring) : State :=
  match b with
  | .input => { s with inRing := r }
  | .output => { s with outRing := r }

/-- DEPTH(b) (R24). -/
def State.depth (s : State) : RingId → Nat
  | .input => s.params.inDepth.toNat
  | .output => s.params.outDepth.toNat

/-- The byte in cell `a` of STORE[b], or none: the model's read of one byte of memory. -/
def State.cell (s : State) (b : RingId) (a : Nat) : Option Byte := (s.ring b).store.read a

/-! ### Named updates of the registers -/

/-- MODE.MODE <- m. -/
def State.setMode (s : State) (m : SerialMode) : State := { s with mode := m }

/-- ATEN.ATEN <- v. -/
def State.setAten (s : State) (v : Bool) : State := { s with aten := v }

/-- PKTDEF <- d. -/
def State.setPktdef (s : State) (d : PacketDef) : State := { s with pktdef := d }

/-- PKTPAY.PAY <- v. -/
def State.setPktpay (s : State) (v : Half) : State := { s with pktpay := v }

/-- TERM.TERM <- v. -/
def State.setTerm (s : State) (v : Byte) : State := { s with term := v }

/-- EVEN <- v. -/
def State.setEven (s : State) (v : BitVec 4) : State := { s with even := v }

/-- STATUS.OVF <- v. -/
def State.setOvf (s : State) (v : Bool) : State := { s with ovf := v }

/-- STATUS.PERR <- v. -/
def State.setPerr (s : State) (v : Bool) : State := { s with perr := v }

/-! ### How a transaction ends (R11) -/

/-- The state with one more transaction's output in the trace. -/
def State.record (s : State) (o : Output) : State := { s with trace := s.trace ++ [o] }

/-- The 4-bit code ST of a status (spec/30_encoding.md R102). -/
def Status.code : Status → BitVec 4
  | .ok => 0
  | .insuffData => 1
  | .insuffSpace => 2
  | .oversize => 3
  | .param => 4
  | .illegal => 5

/-- The state in which the consumer has been answered ST, RES, DOUT and no event was emitted (R246). -/
def State.answer (s : State) (st : Status) (res : Word) (dout : List Byte) : State :=
  s.record { response := some { st := st.code, res := res, dout := dout }, events := [] }

/-- `finish(st, res, dout)` (R11). -/
def finish (s : State) (st : Status) (res : Word) (dout : List Byte) : Result := .next (s.answer st res dout)

/-- The state in which a producer transaction has ended having emitted `evs`; the port returns nothing (R11, R90). -/
def State.produced (s : State) (evs : List Event) : State := s.record { response := none, events := evs }

/-- The event's number, its bit of EVEN (spec/60_exceptions.md R244). -/
def Event.id : Event → Nat
  | .raw => 0
  | .pkt => 1
  | .cmd => 2
  | .ovf => 3

/-- `emit(e)` under the enable of spec/60_exceptions.md R245: the event if its EVEN bit is 1 now, else nothing. -/
def State.emit (s : State) (e : Event) : List Event := if s.even.getLsbD e.id then [e] else []

/-- A pop of n bytes: RingPeek, then RingDrop, in the same transaction (R64). -/
def State.pop (s : State) (b : RingId) (n : Nat) : Except Fault (List Byte × State) := do
  let p ← (s.ring b).peek (s.depth b) n
  let r ← (s.ring b).drop n
  .ok (p, s.setRing b r)

/-- Pop n bytes of ring b and answer OK, n and the bytes: how BUF_POP, READ_RAW and READ_PKT deliver. -/
def deliver (s : State) (b : RingId) (n : Nat) : Result :=
  match s.pop b n with
  | .ok (p, s') => finish s' .ok (BitVec.ofNat 32 n) p
  | .error f => .fault f

/-! ### Turns (R71, R73) -/

/-- Whose turn it is, the transaction that agent issues (none when it has nothing pending, when it is an event receiver,
or when nothing is scheduled), and the state with the turn and the transaction taken off. -/
def State.turn (s : State) : Option Txn × State :=
  match s.schedule with
  | [] => (none, s)
  | .consumer :: rest =>
    match s.commands with
    | [] => (none, { s with schedule := rest })
    | c :: cs => (some (.consumer c), { s with schedule := rest, commands := cs })
  | .producer :: rest =>
    match s.spans with
    | [] => (none, { s with schedule := rest })
    | p :: ps => (some (.producer p), { s with schedule := rest, spans := ps })
  | .receiver :: rest => (none, { s with schedule := rest })

/-- The state with transaction `t` first in its port's queue and its agent first in the schedule: `t` is what the very
next step executes. -/
def State.issueNext (s : State) (t : Txn) : State :=
  match t with
  | .consumer c => { s with schedule := .consumer :: s.schedule, commands := c :: s.commands }
  | .producer p => { s with schedule := .producer :: s.schedule, spans := p :: s.spans }

/-- What a transaction that selects no row does: an illegal command is answered ILLEGAL with nothing changed (R98, R99); a
malformed producer header sets PERR and nothing else (R100, spec/41_ingestion.md R160); a data list of another length is no
transaction and is refused (R94, R96). -/
def rejectTxn (r : Reject) (s : State) : Result :=
  match r with
  | .notATransaction => .refused .notATransaction
  | .illegalOpcode => finish s .illegal 0 []
  | .reservedField => finish s .illegal 0 []
  | .malformedHeader => .next ((s.setPerr true).produced [])

end Sys2Proof.Machine
end

