-- ==== Sys2Proof/Machine/Operands.lean ====
section
/-! DEFINITION. The operand forms: register numbers (spec/10_state.md R41), zero extension (spec/30_encoding.md R105), the
length field of a header (spec/42_framing.md R184) and the terminator search (R186). -/

namespace Sys2Proof.Machine

/-- zext_32 of a 16-bit value (spec/00_scope.md R10, spec/30_encoding.md R105). -/
def zext32 (v : Half) : Word := v.setWidth 32

/-- The register a number names, or none for a reserved number (R41). -/
def csrOf (r : Byte) : Option Csr :=
  match r.toNat with
  | 0x00 => some .mode
  | 0x01 => some .aten
  | 0x02 => some .pktdef
  | 0x03 => some .pktpay
  | 0x04 => some .term
  | 0x05 => some .even
  | 0x06 => some .status
  | 0x08 => some .incap
  | 0x09 => some .inocc
  | 0x0A => some .inrd
  | 0x0B => some .inwr
  | 0x0C => some .outcap
  | 0x0D => some .outocc
  | 0x0E => some .outrd
  | 0x0F => some .outwr
  | 0x10 => some .indepth
  | 0x11 => some .outdepth
  | _ => none

/-- The number of a register (R41). -/
def Csr.num : Csr → Byte
  | .mode => 0x00
  | .aten => 0x01
  | .pktdef => 0x02
  | .pktpay => 0x03
  | .term => 0x04
  | .even => 0x05
  | .status => 0x06
  | .incap => 0x08
  | .inocc => 0x09
  | .inrd => 0x0A
  | .inwr => 0x0B
  | .outcap => 0x0C
  | .outocc => 0x0D
  | .outrd => 0x0E
  | .outwr => 0x0F
  | .indepth => 0x10
  | .outdepth => 0x11

/-- lwBytes (R33): how many bytes the length field has. -/
def LenWidth.bytes : LenWidth → Nat
  | .one => 1
  | .twoLsbFirst => 2
  | .twoMsbFirst => 2

/-- LenField(H, o, lw) (R184); none where the field does not lie inside H, which a legal definition excludes (R33). -/
def lenField (h : List Byte) (o : Nat) (lw : LenWidth) : Option Nat :=
  match lw with
  | .one => do
    let x ← h[o]?
    some x.toNat
  | .twoLsbFirst => do
    let x ← h[o]?
    let y ← h[o + 1]?
    some (x.toNat + 256 * y.toNat)
  | .twoMsbFirst => do
    let x ← h[o]?
    let y ← h[o + 1]?
    some (256 * x.toNat + y.toNat)

/-- The least index at which `t` stands in a list of bytes, or none (R186). -/
def firstIndex (t : Byte) : List Byte → Option Nat
  | [] => none
  | v :: vs => if v = t then some 0 else (firstIndex t vs).map (· + 1)

end Sys2Proof.Machine
end

