-- ==== Sys2Proof/Machine/Flags.lean ====
section
/-! DEFINITION. The control and status registers: what each reads as and what a write of it does (spec/10_state.md R30 to
R40, spec/43_control.md R211 to R213), and the two flags STATUS.OVF and STATUS.PERR (R37, R38). -/

namespace Sys2Proof.Machine

/-! ### Field values -/

/-- MODE.MODE as bits (R30). -/
def SerialMode.bits : SerialMode → BitVec 2
  | .transparent => 0
  | .command => 1
  | .binary => 2

/-- The mode a 2-bit value names; 3 is illegal (R30). -/
def SerialMode.ofBits (v : BitVec 2) : Option SerialMode :=
  match v.toNat with
  | 0 => some .transparent
  | 1 => some .command
  | 2 => some .binary
  | _ => none

/-- PKTDEF.LW as bits (R32). -/
def LenWidth.bits : LenWidth → BitVec 2
  | .one => 0
  | .twoLsbFirst => 1
  | .twoMsbFirst => 2

/-- The length-field form a 2-bit value names; 3 is illegal (R32). -/
def LenWidth.ofBits (v : BitVec 2) : Option LenWidth :=
  match v.toNat with
  | 0 => some .one
  | 1 => some .twoLsbFirst
  | 2 => some .twoMsbFirst
  | _ => none

/-- R33's condition on a definition: a variable one has its whole length field inside its header. -/
def PacketDef.legal (d : PacketDef) : Bool :=
  !d.var || decide (d.ofs.toNat + d.lw.bytes ≤ d.hdr.toNat)

/-- A Bool as bit n of a word, the other bits 0. -/
def bitAt (v : Bool) (n : Nat) : Word := (BitVec.ofBool v).setWidth 32 <<< n

/-- The 32 bits of PKTDEF (R32): CFG in bit 31, reserved bits of 0, LW from bit 17, VAR in bit 16, OFS from bit 8, HDR. -/
def PacketDef.word (d : PacketDef) : Word :=
  bitAt d.cfg 31 ||| d.lw.bits.setWidth 32 <<< 17 ||| bitAt d.var 16 ||| d.ofs.setWidth 32 <<< 8 ||| d.hdr.setWidth 32

/-- The definition a 32-bit value is, if the value is legal by R33. -/
def PacketDef.ofWord (v : Word) : Option PacketDef :=
  if v.extractLsb' 19 12 = 0 then
    match LenWidth.ofBits (v.extractLsb' 17 2) with
    | none => none
    | some lw =>
      let d : PacketDef :=
        { hdr := v.extractLsb' 0 8, ofs := v.extractLsb' 8 8, var := v.getLsbD 16, lw := lw, cfg := v.getLsbD 31 }
      if d.legal then some d else none
  else none

/-! ### Reading (R211) -/

/-- STATUS: PERR in bit 1, OVF in bit 0, the rest 0 (R37, R38). -/
def State.statusWord (s : State) : Word := bitAt s.perr 1 ||| bitAt s.ovf 0

/-- value(r) (R211): the 32-bit value a register reads as. -/
def State.csrValue (s : State) : Csr → Word
  | .mode => s.mode.bits.setWidth 32
  | .aten => (BitVec.ofBool s.aten).setWidth 32
  | .pktdef => s.pktdef.word
  | .pktpay => zext32 s.pktpay
  | .term => s.term.setWidth 32
  | .even => s.even.setWidth 32
  | .status => s.statusWord
  | .incap => zext32 s.inRing.cap
  | .inocc => zext32 s.inRing.occ
  | .inrd => zext32 s.inRing.rd
  | .inwr => zext32 s.inRing.wr
  | .outcap => zext32 s.outRing.cap
  | .outocc => zext32 s.outRing.occ
  | .outrd => zext32 s.outRing.rd
  | .outwr => zext32 s.outRing.wr
  | .indepth => zext32 s.params.inDepth
  | .outdepth => zext32 s.params.outDepth

/-! ### Writing (R212, R213) -/

/-- STATUS_W1C(v) (R213): a 1 bit clears its flag, a 0 bit leaves it; a reserved bit set is PARAM. -/
def statusW1C (s : State) (v : Word) : Except Status State :=
  if v.extractLsb' 2 30 = 0 then
    .ok ((s.setOvf (s.ovf && !v.getLsbD 0)).setPerr (s.perr && !v.getLsbD 1))
  else .error .param

/-- The write of a listed register (R212): the new state, or the status that rejects it whole. -/
def writeCsr (s : State) (c : Csr) (v : Word) : Except Status State :=
  match c with
  | .mode =>
    if v.extractLsb' 2 30 = 0 then
      match SerialMode.ofBits (v.extractLsb' 0 2) with
      | some m => .ok (s.setMode m)
      | none => .error .param
    else .error .param
  | .aten => if v.extractLsb' 1 31 = 0 then .ok (s.setAten (v.getLsbD 0)) else .error .param
  | .pktdef =>
    match PacketDef.ofWord v with
    | some d => .ok (s.setPktdef d)
    | none => .error .param
  | .pktpay => if v.extractLsb' 16 16 = 0 then .ok (s.setPktpay (v.extractLsb' 0 16)) else .error .param
  | .term => if v.extractLsb' 8 24 = 0 then .ok (s.setTerm (v.extractLsb' 0 8)) else .error .param
  | .even => if v.extractLsb' 4 28 = 0 then .ok (s.setEven (v.extractLsb' 0 4)) else .error .param
  | .status => statusW1C s v
  | .incap | .inocc | .inrd | .inwr | .outcap | .outocc | .outrd | .outwr | .indepth | .outdepth => .error .illegal

end Sys2Proof.Machine
end

