-- ==== Sys2Proof/Machine/Control.lean ====
section
/-! DEFINITION. The control commands INIT, CSR_READ and CSR_WRITE (spec/43_control.md). -/

namespace Sys2Proof.Machine

/-- A ring after INIT (R210): the new capacity, OCC, RD and WR 0, the cells as they were. -/
def Ring.initialised (r : Ring) (cap : Half) : Ring := { r with cap := cap, occ := 0, rd := 0, wr := 0 }

/-- The state INIT leaves (R210), before its answer: MODE, CFG, OVF and PERR 0; ATEN, the shape fields of PKTDEF, PKTPAY,
TERM and EVEN unchanged. -/
def State.initialised (s : State) (ic oc : Half) : State :=
  { s with
    inRing := s.inRing.initialised ic
    outRing := s.outRing.initialised oc
    mode := .transparent
    pktdef := { s.pktdef with cfg := false }
    ovf := false
    perr := false }

/-- INIT (R210). -/
def execInit (ic : Half) (opa : Word) (s : State) : Result :=
  let oc : Half := opa.extractLsb' 0 16
  if opa.extractLsb' 16 16 ≠ 0 ∨ s.depth .input < ic.toNat ∨ s.depth .output < oc.toNat then finish s .param 0 []
  else finish (s.initialised ic oc) .ok 0 []

/-- CSR_READ (R211). -/
def execCsrRead (r : Byte) (s : State) : Result :=
  match csrOf r with
  | none => finish s .illegal 0 []
  | some c => finish s .ok (s.csrValue c) []

/-- CSR_WRITE (R212): ILLEGAL before PARAM, whole or nothing. -/
def execCsrWrite (r : Byte) (v : Word) (s : State) : Result :=
  match csrOf r with
  | none => finish s .illegal 0 []
  | some c =>
    match writeCsr s c v with
    | .error st => finish s st 0 []
    | .ok s' => finish s' .ok 0 []

end Sys2Proof.Machine
end

