-- ==== Sys2Proof/Machine/Framing.lean ====
section
/-! DEFINITION. The read commands READ_RAW, READ_PKT and READ_CMD (spec/42_framing.md). None reads MODE (R187). -/

namespace Sys2Proof.Machine

/-- READ_RAW (R180): pop exactly n bytes from IN, or nothing. -/
def execReadRaw (n : Half) (s : State) : Result :=
  if n.toNat = 0 ∨ s.inRing.occ.toNat < n.toNat then finish s .ok 0 []
  else deliver s .input n.toNat

/-- What READ_PKT does once the packet's total is known (R182, R183, R185): OVERSIZE, then occupancy, then the packet. -/
def readUnit (total : Nat) (dst : Half) (s : State) : Result :=
  if dst.toNat < total ∨ s.inRing.cap.toNat < total then finish s .oversize (BitVec.ofNat 32 total) []
  else if s.inRing.occ.toNat < total then finish s .ok 0 []
  else deliver s .input total

/-- READ_PKT_FIXED (R182). -/
def readPktFixed (dst : Half) (s : State) : Result :=
  readUnit (s.pktdef.hdr.toNat + s.pktpay.toNat) dst s

/-- READ_PKT_VAR (R183). -/
def readPktVar (dst : Half) (s : State) : Result :=
  let h := s.pktdef.hdr.toNat
  if s.inRing.occ.toNat < h then finish s .ok 0 []
  else
    match s.inRing.peek (s.depth .input) h with
    | .error f => .fault f
    | .ok hd =>
      match lenField hd s.pktdef.ofs.toNat s.pktdef.lw with
      | none => .fault .lengthFieldOutsideHeader
      | some l => readUnit (h + l) dst s

/-- READ_PKT (R181): at most one complete packet by the active definition. -/
def execReadPkt (dst : Half) (s : State) : Result :=
  if s.pktdef.cfg then (if s.pktdef.var then readPktVar dst s else readPktFixed dst s)
  else finish s .ok 0 []

/-- READ_CMD (R186): the oldest terminator-delimited line of IN. -/
def execReadCmd (dst : Half) (s : State) : Result :=
  match s.inRing.peek (s.depth .input) s.inRing.occ.toNat with
  | .error f => .fault f
  | .ok bytes =>
    match firstIndex s.term bytes with
    | none =>
      if s.inRing.occ = s.inRing.cap ∧ 0 < s.inRing.cap.toNat then
        finish s .oversize (zext32 s.inRing.occ) []
      else finish s .ok 0 []
    | some k =>
      if dst.toNat < k then finish s .oversize (BitVec.ofNat 32 k) []
      else
        match s.inRing.drop (k + 1) with
        | .error f => .fault f
        | .ok r =>
          finish (s.setRing .input r) .ok (0x00010000 ||| BitVec.ofNat 32 k) (bytes.take k)

end Sys2Proof.Machine
end

