-- ==== Sys2Proof/Machine/Ingestion.lean ====
section
/-! DEFINITION. The producer's RX with a well-formed header, the overflow detector and the mode dispatch
(spec/41_ingestion.md). A malformed header never reaches here: `rejectTxn` sets PERR. -/

namespace Sys2Proof.Machine

/-- DISPATCH(D) (R161): the event the mode gives a pushed span. -/
def dispatchEvent (s : State) (d : List Byte) : List Event :=
  match s.mode with
  | .transparent => s.emit .raw
  | .binary => s.emit .pkt
  | .command => if d.contains s.term then s.emit .cmd else []

/-- RX (R160): FAULTED drop, empty span, overflow, push and dispatch, in this order (spec/60_exceptions.md R243). -/
def execRx (d : List Byte) (s : State) : Result :=
  if s.ovf then .next (s.produced [])
  else if d = [] then .next (s.produced [])
  else if s.inRing.free < d.length then .next ((s.setOvf true).produced (s.emit .ovf))
  else
    match s.inRing.push (s.depth .input) d with
    | .ok r => .next ((s.setRing .input r).produced (dispatchEvent s d))
    | .error f => .fault f

end Sys2Proof.Machine
end

