-- ==== Sys2Proof/Machine/RingCommands.lean ====
section
/-! DEFINITION. The ring buffer commands BUF_PUSH, BUF_POP, BUF_PEEK and BUF_DISCARD (spec/40_ring.md). -/

namespace Sys2Proof.Machine

/-- BUF_PUSH (R131): append the bytes DIN to OUT. -/
def execBufPush (din : List Byte) (s : State) : Result :=
  if s.outRing.free < din.length then finish s .insuffSpace 0 []
  else
    match s.outRing.push (s.depth .output) din with
    | .ok r => finish (s.setRing .output r) .ok (BitVec.ofNat 32 din.length) []
    | .error f => .fault f

/-- BUF_POP (R132): remove and return the n oldest bytes of ring b. -/
def execBufPop (b : RingId) (n : Half) (s : State) : Result :=
  if (s.ring b).occ.toNat < n.toNat then finish s .insuffData 0 []
  else deliver s b n.toNat

/-- BUF_PEEK (R133): return the n oldest bytes of ring b without removing them. -/
def execBufPeek (b : RingId) (n : Half) (s : State) : Result :=
  if (s.ring b).occ.toNat < n.toNat then finish s .insuffData 0 []
  else
    match (s.ring b).peek (s.depth b) n.toNat with
    | .ok p => finish s .ok (zext32 n) p
    | .error f => .fault f

/-- BUF_DISCARD (R134): remove the n oldest bytes of ring b without returning them. -/
def execBufDiscard (b : RingId) (n : Half) (s : State) : Result :=
  if (s.ring b).occ.toNat < n.toNat then finish s .insuffData 0 []
  else
    match (s.ring b).drop n.toNat with
    | .ok r => finish (s.setRing b r) .ok (zext32 n) []
    | .error f => .fault f

end Sys2Proof.Machine
end

