-- ==== Sys2Proof/Machine/Dispatch.lean ====
section
/-! DEFINITION. One arm per instruction of the opcode map (spec/30_encoding.md R97). -/

namespace Sys2Proof.Machine

/-- The meaning of an instruction: what its transaction does to the block and outputs. -/
def exec (i : Instr) (s : State) : Host.Outcome State Fault Refusal :=
  match i with
  | .init ic opa => Sys2Proof.Machine.execInit ic opa s
  | .csrRead r => Sys2Proof.Machine.execCsrRead r s
  | .csrWrite r v => Sys2Proof.Machine.execCsrWrite r v s
  | .bufPush din => Sys2Proof.Machine.execBufPush din s
  | .bufPop b n => Sys2Proof.Machine.execBufPop b n s
  | .bufPeek b n => Sys2Proof.Machine.execBufPeek b n s
  | .bufDiscard b n => Sys2Proof.Machine.execBufDiscard b n s
  | .readRaw n => Sys2Proof.Machine.execReadRaw n s
  | .readPkt dst => Sys2Proof.Machine.execReadPkt dst s
  | .readCmd dst => Sys2Proof.Machine.execReadCmd dst s
  | .rx data => Sys2Proof.Machine.execRx data s

end Sys2Proof.Machine
end

