-- ==== Sys2Proof/Machine/Step.lean ====
section
/-! DEFINITION. One step of the serial order (spec/20_memory.md R71, R73): the agent whose turn it is issues its next
transaction, and that transaction is executed whole. -/

namespace Sys2Proof.Machine

/-- One step. With no transaction at this turn the block does nothing (spec/60_exceptions.md R253). -/
def step (s : State) : Host.Outcome State Fault Refusal :=
  match s.turn with
  | (none, s') => .next s'
  | (some t, s') =>
    match decode t with
    | .ok i => exec i s'
    | .error r => rejectTxn r s'

/-- `s` with the instruction word `w` issued as the very next transaction of its port (log entry 7). -/
def State.withFetchWord (s : State) (nbits w : Nat) : State := s.issueNext (txnOfWord nbits w)

end Sys2Proof.Machine
end

