-- ==== Sys2Proof/Safety.lean ====
section
/-! DEFINITION. What claims about ESL-CORE are stated with: the bytes a ring holds, the ring invariant of spec/10_state.md
R29 and what the model adds to it, the states reachable from reset, and the FIFO discipline of spec/20_memory.md R77. -/

namespace Sys2Proof.Machine

/-- The cell of the i-th oldest held byte, (RD + i) mod CAP (R63). -/
def Ring.readCell (r : Ring) (i : Nat) : Nat := (r.rd.toNat + i) % r.cap.toNat

/-- The cell the i-th byte of a push goes to, (WR + i) mod CAP (R62). -/
def Ring.writeCell (r : Ring) (i : Nat) : Nat := (r.wr.toNat + i) % r.cap.toNat

/-- The bytes a ring holds, oldest first. Under `Ring.Inv` every cell read here holds a value, so the default is never used. -/
def Ring.held (r : Ring) : List Byte :=
  (List.range r.occ.toNat).map fun i => (r.store.read (r.readCell i)).getD 0

/-- The bytes ring b of the state holds, oldest first. -/
def State.held (s : State) (b : RingId) : List Byte := (s.ring b).held

/-- A ring after RingDrop of n bytes (R64): only RD and OCC differ. -/
def Ring.dropped (r : Ring) (n : Nat) : Ring :=
  { r with rd := BitVec.ofNat 16 (r.readCell n), occ := BitVec.ofNat 16 (r.occ.toNat - n) }

/-- The ring invariant of R29, clause by clause. -/
structure Ring.Bounded (depth : Nat) (r : Ring) : Prop where
  occ_le_cap : r.occ.toNat ≤ r.cap.toNat
  cap_le_depth : r.cap.toNat ≤ depth
  empty_of_cap_zero : r.cap = 0 → r.occ = 0 ∧ r.rd = 0 ∧ r.wr = 0
  rd_lt_cap : r.cap ≠ 0 → r.rd.toNat < r.cap.toNat
  wr_lt_cap : r.cap ≠ 0 → r.wr.toNat < r.cap.toNat
  wr_eq : r.cap ≠ 0 → r.wr.toNat = (r.rd.toNat + r.occ.toNat) % r.cap.toNat

/-- R29, with what the model adds about the store: the canonical form, no cell outside the store (R24), and a value in
every cell that holds a byte of the ring (R76). -/
structure Ring.Inv (depth : Nat) (r : Ring) : Prop extends Ring.Bounded depth r where
  store_wf : r.store.wf = true
  store_in_depth : ∀ c ∈ r.store, c.1 < depth
  held_written : ∀ i, i < r.occ.toNat → (r.store.read (r.readCell i)).isSome = true

/-- The invariant of the block: legal parameters (R6), both rings (R29), a legal definition (R33). -/
structure State.Inv (s : State) : Prop where
  params_legal : s.params.Legal
  inRing : s.inRing.Inv (s.depth .input)
  outRing : s.outRing.Inv (s.depth .output)
  pktdef_legal : s.pktdef.legal = true

/-- The agents meet their duties (spec/60_exceptions.md R254): every transaction issued and not yet executed has the data
length its word states (R94, R96). -/
structure State.PendingWellFormed (s : State) : Prop where
  commands : ∀ c ∈ s.commands, c.wellFormed = true
  spans : ∀ p ∈ s.spans, p.wellFormed = true

/-- More transactions issued and turns scheduled, after those already there: what the world outside may do between two
steps (R254). -/
def State.arrive (s : State) (turns : List Agent) (cs : List FormatC) (ps : List FormatP) : State :=
  { s with schedule := s.schedule ++ turns, commands := s.commands ++ cs, spans := s.spans ++ ps }

/-- The states a block reaches from power-on reset, under every interleaving and every input the host may give (R71, R254). -/
inductive Reachable : State → Prop where
  | powerOn (p : Params) : p.Legal → Reachable (State.powerOn p)
  | arrive (s : State) (turns : List Agent) (cs : List FormatC) (ps : List FormatP) :
      Reachable s → Reachable (s.arrive turns cs ps)
  | step (s t : State) : Reachable s → Sys2Proof.Machine.step s = .next t → Reachable t

/-- A change of the state applied to a next state, faults and refusals left as they are: what "acts the same but for that
field" is stated with. -/
def mapNext (f : State → State) : Result → Result
  | .next t => .next (f t)
  | .fault e => .fault e
  | .refused e => .refused e

/-! ### FIFO discipline (R77) -/

/-- One primitive operation on a ring: a push of bytes (R62), or a removal of the n oldest (R64). -/
inductive RingOp where
  | push (d : List Byte)
  | remove (n : Nat)
  deriving DecidableEq, Repr

/-- A sequence of primitive operations on one ring, each under its precondition (a push fits, a removal asks no more than
is held). Answers the ring after, the bytes removed and the bytes pushed, each concatenated in order; none where a
precondition fails. -/
def runRingOps (depth : Nat) : List RingOp → Ring → Option (Ring × List Byte × List Byte)
  | [], r => some (r, [], [])
  | .push d :: ops, r =>
    if r.free < d.length then none
    else
      match r.push depth d with
      | .error _ => none
      | .ok r' => (runRingOps depth ops r').map fun (q, removed, pushed) => (q, removed, d ++ pushed)
  | .remove n :: ops, r =>
    if r.occ.toNat < n then none
    else
      match r.peek depth n, r.drop n with
      | .ok p, .ok r' => (runRingOps depth ops r').map fun (q, removed, pushed) => (q, p ++ removed, pushed)
      | _, _ => none

/-- The preconditions of a sequence of ring operations, on the occupancy alone: the running occupancy never exceeds the
capacity and no removal asks for more than is held (R77). -/
def fitsFrom (cap : Nat) : List RingOp → Nat → Bool
  | [], _ => true
  | .push d :: ops, occ => decide (occ + d.length ≤ cap) && fitsFrom cap ops (occ + d.length)
  | .remove n :: ops, occ => decide (n ≤ occ) && fitsFrom cap ops (occ - n)

end Sys2Proof.Machine
end

