-- ==== Sys2Proof/Certificates/Slice0/Obligations.lean ====
section
/-! DEFINITION. The statements for the provers, in the order of OBLIGATIONS.json. Each docstring names the rules of spec/ it
formalises; `Inv` is the invariant of Safety.lean, itself stated below (`StepKeepsInvariant`, `PowerOnMeetsInvariant`). -/

open Sys2Proof Sys2Proof.Machine

/-! ### Reset (spec/70_reset_and_hazards.md) -/

/-- R270, R271's power-on column: every piece of state after power-on reset, for any parameters; the store cells are left
unsaid, as R24 leaves them; and with a capacity of 0 every non-empty RX on a READY link overflows. -/
def Obligations.PowerOnValues : Prop :=
  (∀ p : Params, let s := State.powerOn p
    s.params = p ∧
    (∀ b, (s.ring b).cap = 0 ∧ (s.ring b).occ = 0 ∧ (s.ring b).rd = 0 ∧ (s.ring b).wr = 0) ∧
    s.mode = .transparent ∧ s.aten = false ∧
    s.pktdef = { hdr := 0, ofs := 0, var := false, lw := .one, cfg := false } ∧
    s.pktpay = 0 ∧ s.term = 0x0D ∧ s.even = 0 ∧ s.ovf = false ∧ s.perr = false) ∧
  (∀ (s : State) (d : List Byte), s.inRing.cap = 0 → s.ovf = false → d ≠ [] →
    ∃ t, exec (.rx d) s = .next t ∧ t.ovf = true ∧ t.inRing = s.inRing)

/-- The invariant holds after power-on reset with any legal parameters, and at `State.reset`, whose depths of 64 are the
model's choice (log entry 2). -/
def Obligations.PowerOnMeetsInvariant : Prop :=
  (∀ p : Params, p.Legal → (State.powerOn p).Inv) ∧ State.reset.Inv

/-! ### The step (spec/20_memory.md R71, R73; spec/60_exceptions.md R253) -/

/-- R71, R73: when it is an agent's turn and its next transaction decodes to `i`, the step is `i`'s meaning, on the state
with that turn and that transaction taken off its port's queue (each port's order kept, the other port's queue untouched). -/
def Obligations.StepRunsDecodedTransaction : Prop :=
  (∀ (s : State) (turns : List Agent) (c : FormatC) (cs : List FormatC) (i : Instr),
    s.schedule = .consumer :: turns → s.commands = c :: cs → decode (.consumer c) = .ok i →
    step s = exec i { s with schedule := turns, commands := cs }) ∧
  (∀ (s : State) (turns : List Agent) (p : FormatP) (ps : List FormatP) (i : Instr),
    s.schedule = .producer :: turns → s.spans = p :: ps → decode (.producer p) = .ok i →
    step s = exec i { s with schedule := turns, spans := ps })

/-- R253, R7: with no transaction at this turn (nothing scheduled, an agent with nothing pending, an event receiver) the block
does nothing; only the turn passes. That such a turn is a step at all is the model's choice (log entries 1 and 8). -/
def Obligations.IdleTurnHoldsState : Prop :=
  ∀ s : State,
    (s.schedule = [] → step s = .next s) ∧
    (∀ turns, s.schedule = .receiver :: turns → step s = .next { s with schedule := turns }) ∧
    (∀ turns, s.schedule = .consumer :: turns → s.commands = [] → step s = .next { s with schedule := turns }) ∧
    (∀ turns, s.schedule = .producer :: turns → s.spans = [] → step s = .next { s with schedule := turns })

/-! ### Decoding (spec/30_encoding.md) -/

/-- A few words of spec/95_test_vectors.md decode to the instruction they stand for. -/
def Obligations.SampleWordsDecode : Prop :=
  decode (.consumer ⟨0x01000010, 0x00000008, []⟩) = .ok (.init 16 8) ∧
  decode (.consumer ⟨0x02090000, 0, []⟩) = .ok (.csrRead 0x09) ∧
  decode (.consumer ⟨0x03060000, 1, []⟩) = .ok (.csrWrite 0x06 1) ∧
  decode (.consumer ⟨0x10010003, 0, [0xB1, 0xB2, 0xB3]⟩) = .ok (.bufPush [0xB1, 0xB2, 0xB3]) ∧
  decode (.consumer ⟨0x11000002, 0, []⟩) = .ok (.bufPop .input 2) ∧
  decode (.consumer ⟨0x12010002, 0, []⟩) = .ok (.bufPeek .output 2) ∧
  decode (.consumer ⟨0x13010004, 0, []⟩) = .ok (.bufDiscard .output 4) ∧
  decode (.consumer ⟨0x20000003, 0, []⟩) = .ok (.readRaw 3) ∧
  decode (.consumer ⟨0x21000040, 0, []⟩) = .ok (.readPkt 64) ∧
  decode (.consumer ⟨0x22000020, 0, []⟩) = .ok (.readCmd 32) ∧
  decode (.producer ⟨0x40000002, [0x41, 0x54]⟩) = .ok (.rx [0x41, 0x54])

/-- Decoding the transaction an instruction encodes to gives the instruction back, for every well-formed instruction and
every value of every operand (R92, R95, R97, R105). -/
def Obligations.DecodeOfEncode : Prop :=
  ∀ i : Instr, i.wellFormed = true → decode (encode i) = .ok i

/-- The other way: a transaction that decodes is the encoding of its instruction, but for an operand word the opcode does
not read (R92 to R97, R101). -/
def Obligations.EncodeOfDecode : Prop :=
  ∀ (t : Txn) (i : Instr), decode t = .ok i →
    i.wellFormed = true ∧
    match t, encode i with
    | .consumer c, .consumer e =>
      e.cmd = c.cmd ∧ e.din = c.din ∧ (opField c.cmd = 0x01 ∨ opField c.cmd = 0x03 → e.opa = c.opa)
    | .producer p, .producer e => e = p
    | _, _ => False

/-- R97: on a transaction of the right data length, a word selects a row exactly when (word AND mask) = match, with the
operands of that row. -/
def Obligations.RowSelectedByMatchAndMask : Prop :=
  (∀ c : FormatC, c.wellFormed = true →
    (decode (.consumer c) = .ok (.init (immField c.cmd) c.opa) ↔ c.cmd &&& 0xFFFF0000 = 0x01000000) ∧
    (decode (.consumer c) = .ok (.csrRead (rField c.cmd)) ↔ c.cmd &&& 0xFF00FFFF = 0x02000000) ∧
    (decode (.consumer c) = .ok (.csrWrite (rField c.cmd) c.opa) ↔ c.cmd &&& 0xFF00FFFF = 0x03000000) ∧
    (decode (.consumer c) = .ok (.bufPush c.din) ↔ c.cmd &&& 0xFFFF0000 = 0x10010000) ∧
    (decode (.consumer c) = .ok (.bufPop (selRing (rField c.cmd)) (immField c.cmd)) ↔
      c.cmd &&& 0xFFFE0000 = 0x11000000) ∧
    (decode (.consumer c) = .ok (.bufPeek (selRing (rField c.cmd)) (immField c.cmd)) ↔
      c.cmd &&& 0xFFFE0000 = 0x12000000) ∧
    (decode (.consumer c) = .ok (.bufDiscard (selRing (rField c.cmd)) (immField c.cmd)) ↔
      c.cmd &&& 0xFFFE0000 = 0x13000000) ∧
    (decode (.consumer c) = .ok (.readRaw (immField c.cmd)) ↔ c.cmd &&& 0xFFFF0000 = 0x20000000) ∧
    (decode (.consumer c) = .ok (.readPkt (immField c.cmd)) ↔ c.cmd &&& 0xFFFF0000 = 0x21000000) ∧
    (decode (.consumer c) = .ok (.readCmd (immField c.cmd)) ↔ c.cmd &&& 0xFFFF0000 = 0x22000000)) ∧
  (∀ p : FormatP, p.wellFormed = true →
    (decode (.producer p) = .ok (.rx p.data) ↔ p.ph &&& 0xFFFF0000 = 0x40000000))

/-- R99: a command whose OP is none of the ten consumer opcodes completes with ILLEGAL, RES 0, no data, and changes nothing. -/
def Obligations.UnknownOpcodeIsIllegal : Prop :=
  ∀ (s : State) (turns : List Agent) (c : FormatC) (cs : List FormatC),
    s.schedule = .consumer :: turns → s.commands = c :: cs → c.wellFormed = true →
    opField c.cmd ∉ ([0x01, 0x02, 0x03, 0x10, 0x11, 0x12, 0x13, 0x20, 0x21, 0x22] : List Byte) →
    step s = .next ({ s with schedule := turns, commands := cs }.answer .illegal 0 [])

/-- R98: a consumer command with a non-zero reserved field, or a BUF_PUSH with SEL = 0, completes with ILLEGAL, RES 0, no
data, and changes nothing. -/
def Obligations.ReservedFieldIsIllegal : Prop :=
  ∀ (s : State) (turns : List Agent) (c : FormatC) (cs : List FormatC),
    s.schedule = .consumer :: turns → s.commands = c :: cs → c.wellFormed = true →
    (opField c.cmd ∈ ([0x01, 0x20, 0x21, 0x22] : List Byte) ∧ c.cmd.extractLsb' 16 8 ≠ 0 ∨
      opField c.cmd ∈ ([0x02, 0x03] : List Byte) ∧ c.cmd.extractLsb' 0 16 ≠ 0 ∨
      opField c.cmd ∈ ([0x11, 0x12, 0x13] : List Byte) ∧ c.cmd.extractLsb' 17 7 ≠ 0 ∨
      opField c.cmd = 0x10 ∧ (c.cmd.extractLsb' 17 7 ≠ 0 ∨ c.cmd.getLsbD 16 = false)) →
    step s = .next ({ s with schedule := turns, commands := cs }.answer .illegal 0 [])

/-- R100: a producer header whose bits 31:16 are not 0x4000 sets STATUS.PERR, also while OVF is 1, and does nothing else: no
byte is pushed and no event is emitted. -/
def Obligations.MalformedHeaderOnlySetsPerr : Prop :=
  ∀ (s : State) (turns : List Agent) (p : FormatP) (ps : List FormatP),
    s.schedule = .producer :: turns → s.spans = p :: ps → p.wellFormed = true → p.ph.extractLsb' 16 16 ≠ 0x4000 →
    step s = .next ({ s with schedule := turns, spans := ps, perr := true }.produced [])

/-- R101: OPA is not decoded for any opcode but INIT and CSR_WRITE: its value makes no difference to the step. -/
def Obligations.OperandWordIgnored : Prop :=
  ∀ (s : State) (turns : List Agent) (c : FormatC) (cs : List FormatC) (opa : Word),
    s.schedule = .consumer :: turns → opField c.cmd ≠ 0x01 → opField c.cmd ≠ 0x03 →
    step { s with commands := { c with opa := opa } :: cs } = step { s with commands := c :: cs }

/-- R94, R96: a transaction whose data list has not the stated length is refused, under the model's own name (log entry 6). -/
def Obligations.WrongLengthIsRefused : Prop :=
  (∀ (s : State) (turns : List Agent) (c : FormatC) (cs : List FormatC),
    s.schedule = .consumer :: turns → s.commands = c :: cs →
    c.din.length ≠ (if opField c.cmd = 0x10 then (c.cmd.extractLsb' 0 16).toNat else 0) →
    step s = .refused .notATransaction) ∧
  (∀ (s : State) (turns : List Agent) (p : FormatP) (ps : List FormatP),
    s.schedule = .producer :: turns → s.spans = p :: ps → p.data.length ≠ (p.ph.extractLsb' 0 16).toNat →
    step s = .refused .notATransaction)

/-! ### Ring buffer commands (spec/40_ring.md) -/

/-- R131, R62: BUF_PUSH that fits appends its bytes to OUT, byte i in cell (WR + i) mod CAP, moves WR and OCC, leaves every
other cell and everything else as it was, and answers OK with the count. -/
def Obligations.BufPushAppends : Prop :=
  ∀ (s : State) (d : List Byte), s.Inv → d.length ≤ s.outRing.cap.toNat - s.outRing.occ.toNat →
    ∃ q : Ring,
      exec (.bufPush d) s = .next ((s.setRing .output q).answer .ok (BitVec.ofNat 32 d.length) []) ∧
      q.cap = s.outRing.cap ∧ q.rd = s.outRing.rd ∧
      q.occ.toNat = s.outRing.occ.toNat + d.length ∧
      q.wr.toNat = s.outRing.writeCell d.length ∧
      (∀ i (h : i < d.length), q.store.read (s.outRing.writeCell i) = some d[i]) ∧
      (∀ a, (∀ i, i < d.length → s.outRing.writeCell i ≠ a) → q.store.read a = s.outRing.store.read a) ∧
      q.held = s.outRing.held ++ d

/-- R131: BUF_PUSH with more bytes than OUT has free answers INSUFF_SPACE and changes nothing. -/
def Obligations.BufPushWithoutSpace : Prop :=
  ∀ (s : State) (d : List Byte), s.outRing.cap.toNat - s.outRing.occ.toNat < d.length →
    exec (.bufPush d) s = .next (s.answer .insuffSpace 0 [])

/-- R132, R63, R64: BUF_POP returns the n oldest bytes of the selected ring and removes them, moving RD and OCC alone. -/
def Obligations.BufPopReturnsOldest : Prop :=
  ∀ (s : State) (b : RingId) (n : Half), s.Inv → n.toNat ≤ (s.ring b).occ.toNat →
    ∃ q : Ring,
      exec (.bufPop b n) s = .next ((s.setRing b q).answer .ok (n.setWidth 32) ((s.held b).take n.toNat)) ∧
      q.store = (s.ring b).store ∧ q.cap = (s.ring b).cap ∧ q.wr = (s.ring b).wr ∧
      q.rd.toNat = (s.ring b).readCell n.toNat ∧ q.occ.toNat = (s.ring b).occ.toNat - n.toNat ∧
      q.held = (s.held b).drop n.toNat

/-- R133: BUF_PEEK returns the n oldest bytes of the selected ring and changes nothing. -/
def Obligations.BufPeekReturnsOldest : Prop :=
  ∀ (s : State) (b : RingId) (n : Half), s.Inv → n.toNat ≤ (s.ring b).occ.toNat →
    exec (.bufPeek b n) s = .next (s.answer .ok (n.setWidth 32) ((s.held b).take n.toNat))

/-- R134, R64: BUF_DISCARD removes the n oldest bytes of the selected ring without returning them. -/
def Obligations.BufDiscardRemovesOldest : Prop :=
  ∀ (s : State) (b : RingId) (n : Half), s.Inv → n.toNat ≤ (s.ring b).occ.toNat →
    ∃ q : Ring,
      exec (.bufDiscard b n) s = .next ((s.setRing b q).answer .ok (n.setWidth 32) []) ∧
      q.store = (s.ring b).store ∧ q.cap = (s.ring b).cap ∧ q.wr = (s.ring b).wr ∧
      q.rd.toNat = (s.ring b).readCell n.toNat ∧ q.occ.toNat = (s.ring b).occ.toNat - n.toNat ∧
      q.held = (s.held b).drop n.toNat

/-- R132 to R134: BUF_POP, BUF_PEEK and BUF_DISCARD of more bytes than are held answer INSUFF_DATA and change nothing. -/
def Obligations.RemovalsNeedTheBytes : Prop :=
  ∀ (s : State) (b : RingId) (n : Half), (s.ring b).occ.toNat < n.toNat →
    exec (.bufPop b n) s = .next (s.answer .insuffData 0 []) ∧
    exec (.bufPeek b n) s = .next (s.answer .insuffData 0 []) ∧
    exec (.bufDiscard b n) s = .next (s.answer .insuffData 0 [])

/-- R65, R131 to R134, R160: a count of 0 is no error and changes nothing, whatever the capacity. -/
def Obligations.CountZeroChangesNothing : Prop :=
  ∀ s : State,
    exec (.bufPush []) s = .next (s.answer .ok 0 []) ∧
    (∀ b, exec (.bufPop b 0) s = .next (s.answer .ok 0 []) ∧
      exec (.bufPeek b 0) s = .next (s.answer .ok 0 []) ∧
      exec (.bufDiscard b 0) s = .next (s.answer .ok 0 [])) ∧
    exec (.readRaw 0) s = .next (s.answer .ok 0 []) ∧
    exec (.rx []) s = .next (s.produced [])

/-- The frame of the two instructions that store bytes, BUF_PUSH (OUT) and RX (IN), whatever they answer: no cell but those
of the push, no register but STATUS.OVF (RX), no cursor or capacity but WR and OCC of that ring. -/
def Obligations.StoringFrame : Prop :=
  (∀ (s t : State) (d : List Byte), exec (.bufPush d) s = .next t →
    (∀ a, (∀ i, i < d.length → s.outRing.writeCell i ≠ a) → t.cell .output a = s.cell .output a) ∧
    (∀ a, t.cell .input a = s.cell .input a) ∧
    t.inRing = s.inRing ∧ t.outRing.cap = s.outRing.cap ∧ t.outRing.rd = s.outRing.rd ∧
    t.params = s.params ∧ t.mode = s.mode ∧ t.aten = s.aten ∧ t.pktdef = s.pktdef ∧ t.pktpay = s.pktpay ∧
    t.term = s.term ∧ t.even = s.even ∧ t.ovf = s.ovf ∧ t.perr = s.perr ∧
    t.schedule = s.schedule ∧ t.commands = s.commands ∧ t.spans = s.spans) ∧
  (∀ (s t : State) (d : List Byte), exec (.rx d) s = .next t →
    (∀ a, (∀ i, i < d.length → s.inRing.writeCell i ≠ a) → t.cell .input a = s.cell .input a) ∧
    (∀ a, t.cell .output a = s.cell .output a) ∧
    t.outRing = s.outRing ∧ t.inRing.cap = s.inRing.cap ∧ t.inRing.rd = s.inRing.rd ∧
    t.params = s.params ∧ t.mode = s.mode ∧ t.aten = s.aten ∧ t.pktdef = s.pktdef ∧ t.pktpay = s.pktpay ∧
    t.term = s.term ∧ t.even = s.even ∧ t.perr = s.perr ∧
    t.schedule = s.schedule ∧ t.commands = s.commands ∧ t.spans = s.spans)

/-- The frame of the instructions that take bytes out or look at them: every byte of both stores, every register, the whole
of the ring not selected, and CAP and WR of the one selected stay. (BUF_POP, BUF_PEEK, BUF_DISCARD on ring b; READ_RAW,
READ_PKT, READ_CMD on IN.) -/
def Obligations.TakingFrame : Prop :=
  ∀ (s t : State) (b : RingId) (i : Instr),
    ((∃ n, i = .bufPop b n ∨ i = .bufPeek b n ∨ i = .bufDiscard b n) ∨
      b = .input ∧ ∃ n, i = .readRaw n ∨ i = .readPkt n ∨ i = .readCmd n) →
    exec i s = .next t →
    (∀ c a, t.cell c a = s.cell c a) ∧
    (∀ c, c ≠ b → t.ring c = s.ring c) ∧
    (t.ring b).cap = (s.ring b).cap ∧ (t.ring b).wr = (s.ring b).wr ∧
    t.params = s.params ∧ t.mode = s.mode ∧ t.aten = s.aten ∧ t.pktdef = s.pktdef ∧ t.pktpay = s.pktpay ∧
    t.term = s.term ∧ t.even = s.even ∧ t.ovf = s.ovf ∧ t.perr = s.perr ∧
    t.schedule = s.schedule ∧ t.commands = s.commands ∧ t.spans = s.spans

/-! ### Ingestion (spec/41_ingestion.md) -/

/-- R160, R161, R164, R62: a non-empty RX that fits on a READY link appends its bytes to IN, and emits the event of the mode
in force if that event is enabled (in COMMAND mode only if the span holds the terminator), and nothing else changes. -/
def Obligations.RxPushesAndDispatches : Prop :=
  ∀ (s : State) (d : List Byte), s.Inv → s.ovf = false → d ≠ [] →
    d.length ≤ s.inRing.cap.toNat - s.inRing.occ.toNat →
    ∃ q : Ring,
      exec (.rx d) s = .next ((s.setRing .input q).produced
        (match s.mode with
          | .transparent => if s.even.getLsbD 0 = true then [.raw] else []
          | .binary => if s.even.getLsbD 1 = true then [.pkt] else []
          | .command => if s.term ∈ d ∧ s.even.getLsbD 2 = true then [.cmd] else [])) ∧
      q.cap = s.inRing.cap ∧ q.rd = s.inRing.rd ∧
      q.occ.toNat = s.inRing.occ.toNat + d.length ∧
      q.wr.toNat = s.inRing.writeCell d.length ∧
      (∀ i (h : i < d.length), q.store.read (s.inRing.writeCell i) = some d[i]) ∧
      (∀ a, (∀ i, i < d.length → s.inRing.writeCell i ≠ a) → q.store.read a = s.inRing.store.read a) ∧
      q.held = s.inRing.held ++ d

/-- R162: an RX with bytes on a READY link overflows exactly when its count exceeds the free space of IN; it then drops all
its bytes, sets STATUS.OVF, emits EV_OVF when EN_OVF is 1, and changes nothing else. -/
def Obligations.OverflowDetector : Prop :=
  (∀ (s : State) (d : List Byte), s.ovf = false → d ≠ [] → s.inRing.cap.toNat - s.inRing.occ.toNat < d.length →
    exec (.rx d) s =
      .next ({ s with ovf := true }.produced (if s.even.getLsbD 3 = true then [.ovf] else []))) ∧
  (∀ (s t : State) (d : List Byte), s.ovf = false → d ≠ [] → exec (.rx d) s = .next t →
    (t.ovf = true ↔ s.inRing.cap.toNat - s.inRing.occ.toNat < d.length))

/-- R163, R160: while STATUS.OVF is 1 every RX with a well-formed header is dropped whole, even one that would fit, and no
event is emitted. -/
def Obligations.FaultedLinkDropsEverySpan : Prop :=
  ∀ (s : State) (d : List Byte), s.ovf = true → exec (.rx d) s = .next (s.produced [])

/-- R166: RX reads no PKTDEF, PKTPAY or ATEN: with other values there it does the same to everything else. -/
def Obligations.RxReadsNoDefinition : Prop :=
  ∀ (s : State) (d : List Byte) (def' : PacketDef) (pay : Half) (at' : Bool),
    exec (.rx d) { s with pktdef := def', pktpay := pay, aten := at' } =
      mapNext (fun t => { t with pktdef := def', pktpay := pay, aten := at' }) (exec (.rx d) s)

/-! ### Framing and read commands (spec/42_framing.md) -/

/-- R180: READ_RAW pops exactly n bytes from IN, or, when n is 0 or fewer are held, answers 0 and changes nothing. -/
def Obligations.ReadRawAllOrNothing : Prop :=
  ∀ (s : State) (n : Half),
    (n = 0 ∨ s.inRing.occ.toNat < n.toNat → exec (.readRaw n) s = .next (s.answer .ok 0 [])) ∧
    (s.Inv → n ≠ 0 → n.toNat ≤ s.inRing.occ.toNat →
      exec (.readRaw n) s =
        .next ((s.setRing .input (s.inRing.dropped n.toNat)).answer .ok (n.setWidth 32) (s.inRing.held.take n.toNat)))

/-- R181: with no definition configured READ_PKT answers OK, 0, whatever IN holds and whatever dst is, and changes nothing. -/
def Obligations.ReadPktUnconfigured : Prop :=
  ∀ (s : State) (dst : Half), s.pktdef.cfg = false → exec (.readPkt dst) s = .next (s.answer .ok 0 [])

/-- R182: READ_PKT under a fixed definition: OVERSIZE, then "not yet", then the packet. -/
def Obligations.ReadPktFixedDefinition : Prop :=
  ∀ (s : State) (dst : Half), s.Inv → s.pktdef.cfg = true → s.pktdef.var = false →
    let req := s.pktdef.hdr.toNat + s.pktpay.toNat
    exec (.readPkt dst) s = .next
      (if dst.toNat < req ∨ s.inRing.cap.toNat < req then s.answer .oversize (BitVec.ofNat 32 req) []
      else if s.inRing.occ.toNat < req then s.answer .ok 0 []
      else (s.setRing .input (s.inRing.dropped req)).answer .ok (BitVec.ofNat 32 req) (s.inRing.held.take req))

/-- R183, R184, R185: READ_PKT under a variable definition: header held, then OVERSIZE, then payload held, then the packet;
the payload length is read at OFS in the width and order LW gives. -/
def Obligations.ReadPktVariableDefinition : Prop :=
  ∀ (s : State) (dst : Half), s.Inv → s.pktdef.cfg = true → s.pktdef.var = true →
    let h := s.pktdef.hdr.toNat
    let o := s.pktdef.ofs.toNat
    let byte := fun k => (s.inRing.held.getD k 0).toNat
    let total := h + (match s.pktdef.lw with
      | .one => byte o
      | .twoLsbFirst => byte o + 256 * byte (o + 1)
      | .twoMsbFirst => 256 * byte o + byte (o + 1))
    exec (.readPkt dst) s = .next
      (if s.inRing.occ.toNat < h then s.answer .ok 0 []
      else if dst.toNat < total ∨ s.inRing.cap.toNat < total then s.answer .oversize (BitVec.ofNat 32 total) []
      else if s.inRing.occ.toNat < total then s.answer .ok 0 []
      else (s.setRing .input (s.inRing.dropped total)).answer .ok (BitVec.ofNat 32 total) (s.inRing.held.take total))

/-- R186: READ_CMD. No terminator held: OVERSIZE with OCC when IN is full, else OK, 0. A terminator first at index k: OVERSIZE
with k when k > dst, else the line without its terminator, FOUND and k in RES, and k + 1 bytes removed. -/
def Obligations.ReadCmdTakesFirstLine : Prop :=
  ∀ (s : State) (dst : Half), s.Inv →
    (s.term ∉ s.inRing.held →
      exec (.readCmd dst) s = .next
        (if s.inRing.occ = s.inRing.cap ∧ s.inRing.cap ≠ 0 then s.answer .oversize (s.inRing.occ.setWidth 32) []
        else s.answer .ok 0 [])) ∧
    (∀ k, s.inRing.held[k]? = some s.term → (∀ j, j < k → s.inRing.held[j]? ≠ some s.term) →
      exec (.readCmd dst) s = .next
        (if dst.toNat < k then s.answer .oversize (BitVec.ofNat 32 k) []
        else (s.setRing .input (s.inRing.dropped (k + 1))).answer .ok (BitVec.ofNat 32 (0x00010000 + k))
          (s.inRing.held.take k)))

/-- R187: no read command reads MODE: under another mode it answers and does the same. -/
def Obligations.ReadsIgnoreMode : Prop :=
  ∀ (s : State) (m : SerialMode) (n : Half) (i : Instr), i = .readRaw n ∨ i = .readPkt n ∨ i = .readCmd n →
    exec i { s with mode := m } = mapNext (fun t => { t with mode := m }) (exec i s)

/-- R188: a READ_RAW, READ_PKT or READ_CMD answered OK (0) with RES 0, OVERSIZE (3) or ILLEGAL (5) changes nothing, and the same command
issued again next gets the same answer and changes nothing again. -/
def Obligations.FailedReadIsIdempotent : Prop :=
  ∀ (s s' t : State) (c : FormatC) (r : Response),
    s.turn = (some (.consumer c), s') → opField c.cmd ∈ ([0x20, 0x21, 0x22] : List Byte) →
    step s = .next t → t.trace = s'.trace ++ [{ response := some r, events := [] }] →
    (r.st = 0 ∧ r.res = 0 ∨ r.st = 3 ∨ r.st = 5) →
    r.dout = [] ∧ t = s'.record { response := some r, events := [] } ∧
      step (t.issueNext (.consumer c)) = .next (t.record { response := some r, events := [] })

/-! ### Control commands (spec/43_control.md) -/

/-- R210: INIT with capacities within the depths and OPA[31:16] = 0 sets both capacities, empties both rings, clears MODE,
CFG, OVF and PERR, keeps ATEN, the shape fields of PKTDEF, PKTPAY, TERM, EVEN and every cell, and answers OK. -/
def Obligations.InitReinitialises : Prop :=
  ∀ (s : State) (ic : Half) (opa : Word), opa.extractLsb' 16 16 = 0 → ic.toNat ≤ s.params.inDepth.toNat →
    (opa.extractLsb' 0 16).toNat ≤ s.params.outDepth.toNat →
    exec (.init ic opa) s = .next
      ({ s with
        inRing := { store := s.inRing.store, cap := ic, occ := 0, rd := 0, wr := 0 }
        outRing := { store := s.outRing.store, cap := opa.extractLsb' 0 16, occ := 0, rd := 0, wr := 0 }
        mode := .transparent
        pktdef := { hdr := s.pktdef.hdr, ofs := s.pktdef.ofs, var := s.pktdef.var, lw := s.pktdef.lw, cfg := false }
        ovf := false
        perr := false }.answer .ok 0 [])

/-- R210: INIT with a capacity above its depth, or OPA[31:16] not 0, answers PARAM and changes nothing. -/
def Obligations.InitOutOfRange : Prop :=
  ∀ (s : State) (ic : Half) (opa : Word),
    (opa.extractLsb' 16 16 ≠ 0 ∨ s.params.inDepth.toNat < ic.toNat ∨
      s.params.outDepth.toNat < (opa.extractLsb' 0 16).toNat) →
    exec (.init ic opa) s = .next (s.answer .param 0 [])

/-- R211, R30 to R40: what CSR_READ of each listed register answers; it changes nothing. -/
def Obligations.CsrReadValues : Prop :=
  ∀ s : State,
    exec (.csrRead 0x00) s = .next (s.answer .ok
      (match s.mode with | .transparent => 0 | .command => 1 | .binary => 2) []) ∧
    exec (.csrRead 0x01) s = .next (s.answer .ok (if s.aten then 1 else 0) []) ∧
    (∃ v, exec (.csrRead 0x02) s = .next (s.answer .ok v []) ∧
      v.extractLsb' 0 8 = s.pktdef.hdr ∧ v.extractLsb' 8 8 = s.pktdef.ofs ∧ v.getLsbD 16 = s.pktdef.var ∧
      v.extractLsb' 17 2 = (match s.pktdef.lw with | .one => 0 | .twoLsbFirst => 1 | .twoMsbFirst => 2) ∧
      v.extractLsb' 19 12 = 0 ∧ v.getLsbD 31 = s.pktdef.cfg) ∧
    exec (.csrRead 0x03) s = .next (s.answer .ok (s.pktpay.setWidth 32) []) ∧
    exec (.csrRead 0x04) s = .next (s.answer .ok (s.term.setWidth 32) []) ∧
    exec (.csrRead 0x05) s = .next (s.answer .ok (s.even.setWidth 32) []) ∧
    exec (.csrRead 0x06) s = .next (s.answer .ok ((if s.perr then 2 else 0) + (if s.ovf then 1 else 0)) []) ∧
    exec (.csrRead 0x08) s = .next (s.answer .ok (s.inRing.cap.setWidth 32) []) ∧
    exec (.csrRead 0x09) s = .next (s.answer .ok (s.inRing.occ.setWidth 32) []) ∧
    exec (.csrRead 0x0A) s = .next (s.answer .ok (s.inRing.rd.setWidth 32) []) ∧
    exec (.csrRead 0x0B) s = .next (s.answer .ok (s.inRing.wr.setWidth 32) []) ∧
    exec (.csrRead 0x0C) s = .next (s.answer .ok (s.outRing.cap.setWidth 32) []) ∧
    exec (.csrRead 0x0D) s = .next (s.answer .ok (s.outRing.occ.setWidth 32) []) ∧
    exec (.csrRead 0x0E) s = .next (s.answer .ok (s.outRing.rd.setWidth 32) []) ∧
    exec (.csrRead 0x0F) s = .next (s.answer .ok (s.outRing.wr.setWidth 32) []) ∧
    exec (.csrRead 0x10) s = .next (s.answer .ok (s.params.inDepth.setWidth 32) []) ∧
    exec (.csrRead 0x11) s = .next (s.answer .ok (s.params.outDepth.setWidth 32) [])

/-- R41, R211, R212: CSR_READ and CSR_WRITE of a reserved number, and CSR_WRITE of a read-only register whatever the value,
answer ILLEGAL and change nothing. -/
def Obligations.ReservedAndReadOnlyRegisters : Prop :=
  ∀ (s : State) (r : Byte) (v : Word),
    (r = 0x07 ∨ 0x12 ≤ r.toNat → exec (.csrRead r) s = .next (s.answer .illegal 0 [])) ∧
    (0x07 ≤ r.toNat → exec (.csrWrite r v) s = .next (s.answer .illegal 0 []))

/-- R212: CSR_WRITE of MODE, ATEN, PKTPAY, TERM and EVEN stores a legal value, changes nothing else, and answers OK. -/
def Obligations.CsrWriteStoresLegalValue : Prop :=
  ∀ (s : State) (v : Word),
    (v = 0 → exec (.csrWrite 0x00 v) s = .next ({ s with mode := .transparent }.answer .ok 0 [])) ∧
    (v = 1 → exec (.csrWrite 0x00 v) s = .next ({ s with mode := .command }.answer .ok 0 [])) ∧
    (v = 2 → exec (.csrWrite 0x00 v) s = .next ({ s with mode := .binary }.answer .ok 0 [])) ∧
    (v.toNat < 2 → exec (.csrWrite 0x01 v) s = .next ({ s with aten := v.getLsbD 0 }.answer .ok 0 [])) ∧
    (v.toNat < 2 ^ 16 →
      exec (.csrWrite 0x03 v) s = .next ({ s with pktpay := v.extractLsb' 0 16 }.answer .ok 0 [])) ∧
    (v.toNat < 2 ^ 8 → exec (.csrWrite 0x04 v) s = .next ({ s with term := v.extractLsb' 0 8 }.answer .ok 0 [])) ∧
    (v.toNat < 2 ^ 4 → exec (.csrWrite 0x05 v) s = .next ({ s with even := v.extractLsb' 0 4 }.answer .ok 0 []))

/-- R212: a value with a reserved bit set, or MODE = 3, answers PARAM and writes nothing. -/
def Obligations.CsrWriteRejectsIllegalValue : Prop :=
  ∀ (s : State) (v : Word),
    (3 ≤ v.toNat → exec (.csrWrite 0x00 v) s = .next (s.answer .param 0 [])) ∧
    (2 ≤ v.toNat → exec (.csrWrite 0x01 v) s = .next (s.answer .param 0 [])) ∧
    (2 ^ 16 ≤ v.toNat → exec (.csrWrite 0x03 v) s = .next (s.answer .param 0 [])) ∧
    (2 ^ 8 ≤ v.toNat → exec (.csrWrite 0x04 v) s = .next (s.answer .param 0 [])) ∧
    (2 ^ 4 ≤ v.toNat → exec (.csrWrite 0x05 v) s = .next (s.answer .param 0 []))

/-- R33: a value written to PKTDEF is legal exactly when bits 30:19 are 0, bits 18:17 are not 3, and, if bit 16 is 1,
bits 15:8 plus the length field's bytes are at most bits 7:0; a legal value is stored field by field, an illegal one answers
PARAM and writes nothing; CFG and the state make no difference to that; and every definition reachable from reset is legal
(its reserved bits and LW = 3 have no representation, log entry 9). -/
def Obligations.PktdefWriteLegality : Prop :=
  (∀ (s : State) (v : Word),
    let lwBytes := if v.extractLsb' 17 2 = 0 then 1 else 2
    let isLegal := v.extractLsb' 19 12 = 0 ∧ v.extractLsb' 17 2 ≠ 3 ∧
      (v.getLsbD 16 = true → (v.extractLsb' 8 8).toNat + lwBytes ≤ (v.extractLsb' 0 8).toNat)
    (isLegal → exec (.csrWrite 0x02 v) s = .next
      ({ s with pktdef :=
        { hdr := v.extractLsb' 0 8
          ofs := v.extractLsb' 8 8
          var := v.getLsbD 16
          lw := if v.extractLsb' 17 2 = 0 then .one else if v.extractLsb' 17 2 = 1 then .twoLsbFirst else .twoMsbFirst
          cfg := v.getLsbD 31 } }.answer .ok 0 [])) ∧
    (¬ isLegal → exec (.csrWrite 0x02 v) s = .next (s.answer .param 0 []))) ∧
  (∀ s : State, Reachable s → s.pktdef.var = true →
    s.pktdef.ofs.toNat + (match s.pktdef.lw with | .one => 1 | .twoLsbFirst => 2 | .twoMsbFirst => 2) ≤ s.pktdef.hdr.toNat)

/-- R213: a write to STATUS clears OVF if bit 0 is 1 and PERR if bit 1 is 1, leaves a flag whose bit is 0, sets neither, and
is rejected whole with PARAM if any of bits 31:2 is 1. -/
def Obligations.StatusWriteOneToClear : Prop :=
  ∀ (s : State) (v : Word),
    (v.extractLsb' 2 30 = 0 → exec (.csrWrite 0x06 v) s = .next
      ({ s with
        ovf := if v.getLsbD 0 = true then false else s.ovf
        perr := if v.getLsbD 1 = true then false else s.perr }.answer .ok 0 [])) ∧
    (v.extractLsb' 2 30 ≠ 0 → exec (.csrWrite 0x06 v) s = .next (s.answer .param 0 []))

/-- R279: a value that CSR_WRITE stores in MODE, ATEN, PKTDEF, PKTPAY, TERM or EVEN is what CSR_READ then answers, bit for bit. -/
def Obligations.CsrWriteThenRead : Prop :=
  ∀ (s t : State) (r : Byte) (v : Word), r.toNat ≤ 5 → exec (.csrWrite r v) s = .next t →
    t.trace = s.trace ++ [{ response := some { st := 0, res := 0, dout := [] }, events := [] }] →
    exec (.csrRead r) t = .next (t.answer .ok v [])

/-- The frame of CSR_READ, CSR_WRITE and INIT: every byte of both stores, the parameters and the pending inputs stay; CSR_READ
and CSR_WRITE leave both rings; CSR_READ leaves every register; CSR_WRITE leaves every register but the one it names; INIT
leaves ATEN, HDR, OFS, VAR, LW, PKTPAY, TERM and EVEN (R210 to R213). -/
def Obligations.ControlFrame : Prop :=
  ∀ (s t : State) (i : Instr), exec i s = .next t →
    ((∃ r, i = .csrRead r) ∨ (∃ r v, i = .csrWrite r v) ∨ (∃ ic opa, i = .init ic opa) →
      (∀ b a, t.cell b a = s.cell b a) ∧ t.params = s.params ∧
      t.schedule = s.schedule ∧ t.commands = s.commands ∧ t.spans = s.spans) ∧
    (∀ r, i = .csrRead r → { t with trace := s.trace } = s) ∧
    (∀ r v, i = .csrWrite r v →
      t.inRing = s.inRing ∧ t.outRing = s.outRing ∧
      (r ≠ 0x00 → t.mode = s.mode) ∧ (r ≠ 0x01 → t.aten = s.aten) ∧ (r ≠ 0x02 → t.pktdef = s.pktdef) ∧
      (r ≠ 0x03 → t.pktpay = s.pktpay) ∧ (r ≠ 0x04 → t.term = s.term) ∧ (r ≠ 0x05 → t.even = s.even) ∧
      (r ≠ 0x06 → t.ovf = s.ovf ∧ t.perr = s.perr)) ∧
    (∀ ic opa, i = .init ic opa →
      t.aten = s.aten ∧ t.pktpay = s.pktpay ∧ t.term = s.term ∧ t.even = s.even ∧
      t.pktdef.hdr = s.pktdef.hdr ∧ t.pktdef.ofs = s.pktdef.ofs ∧ t.pktdef.var = s.pktdef.var ∧
      t.pktdef.lw = s.pktdef.lw)

/-- R214: ATEN has no effect on any transaction: but for CSR_READ and CSR_WRITE of ATEN itself, the step under another ATEN
answers, emits and does the same. -/
def Obligations.AtenHasNoEffect : Prop :=
  ∀ (s : State) (v : Bool),
    (∀ t, s.turn.1 = some t → decode t ≠ .ok (.csrRead 0x01) ∧ ∀ w, decode t ≠ .ok (.csrWrite 0x01 w)) →
    step { s with aten := v } = mapNext (fun t => { t with aten := v }) (step s)

/-! ### Results, errors and events (spec/30_encoding.md R102 to R108, spec/60_exceptions.md) -/

/-- R102's "produced by" column and R90: every consumer command appends one response to the trace, with an ST code that the
table lists for it; RX appends an output without a response. -/
def Obligations.StatusPerCommand : Prop :=
  ∀ (i : Instr) (s t : State), exec i s = .next t →
    match i with
    | .rx _ => ∃ evs, t.trace = s.trace ++ [{ response := none, events := evs }]
    | _ => ∃ r : Response, t.trace = s.trace ++ [{ response := some r, events := [] }] ∧
      (r.st = 1 → ∃ b n, i = .bufPop b n ∨ i = .bufPeek b n ∨ i = .bufDiscard b n) ∧
      (r.st = 2 → ∃ d, i = .bufPush d) ∧
      (r.st = 3 → ∃ n, i = .readPkt n ∨ i = .readCmd n) ∧
      (r.st = 4 → (∃ ic opa, i = .init ic opa) ∨ ∃ q v, i = .csrWrite q v) ∧
      (r.st = 5 → (∃ q, i = .csrRead q) ∨ ∃ q v, i = .csrWrite q v)

/-- R104, R108: how many bytes DOUT has: RES[15:0] for BUF_POP, BUF_PEEK and READ_RAW, RES for READ_PKT with OK, RES[15:0] for
READ_CMD with OK, none for every other command and for every error. -/
def Obligations.ResponseDataLength : Prop :=
  ∀ (i : Instr) (s t : State) (r : Response), s.Inv → exec i s = .next t →
    t.trace = s.trace ++ [{ response := some r, events := [] }] →
    r.dout.length =
      if r.st ≠ 0 then 0
      else match i with
        | .bufPop _ _ | .bufPeek _ _ | .readRaw _ | .readCmd _ => (r.res.extractLsb' 0 16).toNat
        | .readPkt _ => r.res.toNat
        | _ => 0

/-- R242: a consumer command answered anything but OK changes no state and emits no event; an RX that overflows changes only
OVF; one dropped while FAULTED changes nothing; a malformed one changes only PERR. -/
def Obligations.ErrorsArePrecise : Prop :=
  (∀ (s s' t : State) (c : FormatC) (o : Output) (r : Response), s.turn = (some (.consumer c), s') → step s = .next t →
    t.trace = s'.trace ++ [o] → o.response = some r → r.st ≠ 0 →
    o.events = [] ∧ { t with trace := s'.trace } = s') ∧
  (∀ (s s' t : State) (p : FormatP), s.turn = (some (.producer p), s') → step s = .next t →
    (s.ovf = false → t.ovf = true → { t with trace := s'.trace } = { s' with ovf := true }) ∧
    (p.ph.extractLsb' 16 16 = 0x4000 → s.ovf = true → { t with trace := s'.trace } = s') ∧
    (p.ph.extractLsb' 16 16 ≠ 0x4000 → { t with trace := s'.trace } = { s' with perr := true }))

/-- R246, R165, R245: every executed transaction appends its one output to the trace, in serial order; that output has at most
one event, which was enabled in EVEN at that transaction; a consumer transaction emits none. -/
def Obligations.AtMostOneEnabledEvent : Prop :=
  ∀ (s s' t : State) (x : Txn), s.turn = (some x, s') → step s = .next t →
    ∃ o : Output, t.trace = s.trace ++ [o] ∧ o.events.length ≤ 1 ∧
      (∀ e ∈ o.events, s.even.getLsbD e.id = true) ∧
      (∀ c, x = .consumer c → o.events = [] ∧ o.response ≠ none) ∧
      (∀ p, x = .producer p → o.response = none)

/-- R161, R164, R244: which event an executed transaction emits, exactly. The mode's event after a push, if its EVEN bit is 1
(in COMMAND mode only if the span itself holds the terminator, and once however many it holds); EV_OVF on an overflow, if
EN_OVF is 1; nothing otherwise, and never from a consumer command. -/
def Obligations.EventsEmittedExactly : Prop :=
  ∀ (s t : State) (i : Instr) (o : Output), exec i s = .next t → t.trace = s.trace ++ [o] →
    let free := s.inRing.cap.toNat - s.inRing.occ.toNat
    let pushes := fun d => i = .rx d ∧ s.ovf = false ∧ d ≠ [] ∧ d.length ≤ free
    (.raw ∈ o.events ↔ ∃ d, pushes d ∧ s.mode = .transparent ∧ s.even.getLsbD 0 = true) ∧
    (.pkt ∈ o.events ↔ ∃ d, pushes d ∧ s.mode = .binary ∧ s.even.getLsbD 1 = true) ∧
    (.cmd ∈ o.events ↔ ∃ d, pushes d ∧ s.mode = .command ∧ s.term ∈ d ∧ s.even.getLsbD 2 = true) ∧
    (.ovf ∈ o.events ↔ ∃ d, i = .rx d ∧ s.ovf = false ∧ free < d.length ∧ s.even.getLsbD 3 = true) ∧
    o.events.length ≤ 1

/-! ### Whole-machine rules -/

/-- Every step keeps the invariant (R29, R33, and the store's canonical form), from every state that meets it. -/
def Obligations.StepKeepsInvariant : Prop :=
  ∀ s t : State, s.Inv → step s = .next t → t.Inv

/-- R29: in every state reachable from reset, under every interleaving and every input, each ring has
OCC <= CAP <= DEPTH, is all zero when its capacity is 0, and otherwise has both cursors below CAP with
WR = (RD + OCC) mod CAP. -/
def Obligations.RingInvariantReachable : Prop :=
  ∀ (s : State) (b : RingId), Reachable s →
    let r := s.ring b
    r.occ.toNat ≤ r.cap.toNat ∧ r.cap.toNat ≤ s.depth b ∧
    (r.cap = 0 → r.occ = 0 ∧ r.rd = 0 ∧ r.wr = 0) ∧
    (r.cap ≠ 0 → r.rd.toNat < r.cap.toNat ∧ r.wr.toNat < r.cap.toNat ∧
      r.wr.toNat = (r.rd.toNat + r.occ.toNat) % r.cap.toNat)

/-- R73, R240, R76: from every state that meets the invariant, when the agents meet their duties on data lengths, the step
completes: no fault (no unwritten or missing cell is read, no modulo by zero) and no refusal; both conditions hold again
after it. -/
def Obligations.EveryTransactionCompletes : Prop :=
  ∀ s : State, s.Inv → s.PendingWellFormed → ∃ t, step s = .next t ∧ t.Inv ∧ t.PendingWellFormed

/-- R37: a step sets OVF only by an RX on a READY link that exceeds the free space of IN, and clears it only by a CSR_WRITE to
STATUS with bit 0 set or by an INIT. -/
def Obligations.OvfChangesOnlyAsStated : Prop :=
  ∀ s t : State, step s = .next t →
    (s.ovf = false → t.ovf = true →
      ∃ p d s', s.turn = (some (.producer p), s') ∧ decode (.producer p) = .ok (.rx d) ∧
        s.inRing.cap.toNat - s.inRing.occ.toNat < d.length) ∧
    (s.ovf = true → t.ovf = false →
      ∃ c s', s.turn = (some (.consumer c), s') ∧
        ((∃ v, decode (.consumer c) = .ok (.csrWrite 0x06 v) ∧ v.getLsbD 0 = true) ∨
          ∃ ic opa, decode (.consumer c) = .ok (.init ic opa)))

/-- R38: a step sets PERR only by a malformed producer header, and clears it only by a CSR_WRITE to STATUS with bit 1 set or by
an INIT. -/
def Obligations.PerrChangesOnlyAsStated : Prop :=
  ∀ s t : State, step s = .next t →
    (s.perr = false → t.perr = true →
      ∃ p s', s.turn = (some (.producer p), s') ∧ p.ph.extractLsb' 16 16 ≠ 0x4000) ∧
    (s.perr = true → t.perr = false →
      ∃ c s', s.turn = (some (.consumer c), s') ∧
        ((∃ v, decode (.consumer c) = .ok (.csrWrite 0x06 v) ∧ v.getLsbD 1 = true) ∨
          ∃ ic opa, decode (.consumer c) = .ok (.init ic opa)))

/-- R6, R25 to R28, R210: no step changes a parameter; only INIT changes a capacity; but for INIT, only RX (IN) and BUF_PUSH
(OUT) move a write cursor or raise an occupancy, and neither moves a read cursor or lowers an occupancy. -/
def Obligations.CapacitiesAndCursorsMoveOnlyAsStated : Prop :=
  ∀ (s t : State) (i : Instr), s.Inv → exec i s = .next t →
    t.params = s.params ∧
    ((∀ ic opa, i ≠ .init ic opa) → ∀ b, (t.ring b).cap = (s.ring b).cap ∧
      ((t.ring b).wr ≠ (s.ring b).wr ∨ (s.ring b).occ.toNat < (t.ring b).occ.toNat →
        b = .input ∧ (∃ d, i = .rx d) ∨ b = .output ∧ ∃ d, i = .bufPush d) ∧
      ((t.ring b).rd ≠ (s.ring b).rd ∨ (t.ring b).occ.toNat < (s.ring b).occ.toNat →
        (∃ n, i = .bufPop b n ∨ i = .bufDiscard b n) ∨
        b = .input ∧ ∃ n, i = .readRaw n ∨ i = .readPkt n ∨ i = .readCmd n))

/-- R77 for one ring: from a ring just initialised with any capacity, every sequence of pushes and removals whose running
occupancy stays within it runs, the bytes removed followed by the bytes still held are the bytes pushed, in order, and OCC is
the number pushed minus the number removed. -/
def Obligations.FifoIntegrity : Prop :=
  ∀ (depth : Nat) (cap : Half) (m : Memory) (ops : List RingOp),
    cap.toNat ≤ depth → m.wf = true → (∀ c ∈ m, c.1 < depth) → fitsFrom cap.toNat ops 0 = true →
    ∃ q removed pushed,
      runRingOps depth ops { store := m, cap := cap, occ := 0, rd := 0, wr := 0 } = some (q, removed, pushed) ∧
      removed ++ q.held = pushed ∧ q.occ.toNat + removed.length = pushed.length ∧ q.Inv depth

/-- R74, R76, R77, R249 for the machine: but for INIT, an instruction changes the bytes a ring holds only by taking some from
the front and adding some behind; only RX adds to IN and only BUF_PUSH to OUT, the bytes they carry; RX and BUF_PUSH take none;
and the bytes BUF_POP, READ_RAW and READ_PKT return are those they take, those READ_CMD returns are those it takes without the
terminator that ends them. -/
def Obligations.RingsAreQueues : Prop :=
  ∀ (s t : State) (i : Instr), s.Inv → exec i s = .next t → (∀ ic opa, i ≠ .init ic opa) →
    ∀ b, ∃ removed pushed,
      s.held b ++ pushed = removed ++ t.held b ∧
      (pushed ≠ [] → b = .input ∧ i = .rx pushed ∨ b = .output ∧ i = .bufPush pushed) ∧
      (removed ≠ [] →
        (∃ n, i = .bufPop b n ∨ i = .bufDiscard b n) ∨
        b = .input ∧ ∃ n, i = .readRaw n ∨ i = .readPkt n ∨ i = .readCmd n) ∧
      (∀ o r, removed ≠ [] → t.trace = s.trace ++ [o] → o.response = some r →
        (∀ n, i = .bufPop b n ∨ i = .readRaw n ∨ i = .readPkt n → r.dout = removed) ∧
        (∀ n, i = .readCmd n → r.dout ++ [s.term] = removed ∧ s.term ∉ r.dout))

/-- R282: INIT is atomic with respect to RX. An RX executed just before an INIT that succeeds is discarded with the old
contents; one executed just after it lands alone in the new, empty IN, under MODE = TRANSPARENT. -/
def Obligations.InitIsAtomicWithRx : Prop :=
  ∀ (s : State) (ic : Half) (opa : Word) (d : List Byte), s.Inv → d.length ≤ ic.toNat →
    opa.extractLsb' 16 16 = 0 → ic.toNat ≤ s.params.inDepth.toNat →
    (opa.extractLsb' 0 16).toNat ≤ s.params.outDepth.toNat →
    (∃ t u, exec (.rx d) s = .next t ∧ exec (.init ic opa) t = .next u ∧
      u.held .input = [] ∧ u.held .output = [] ∧ u.inRing.cap = ic ∧ u.ovf = false) ∧
    (∃ t u, exec (.init ic opa) s = .next t ∧ exec (.rx d) t = .next u ∧ t.mode = .transparent ∧
      u.held .input = d ∧ u.inRing.rd = 0 ∧ u.ovf = false ∧
      u.trace = t.trace ++ [{ response := none, events := if d ≠ [] ∧ s.even.getLsbD 0 = true then [.raw] else [] }])

/-! ### The status codes on the port (spec/30_encoding.md R102) -/

/-- R102, R90, R91, R103: ST is the 4-bit code of the table; a consumer transaction that completes returns one of the codes 0
to 5, never a reserved one; each non-zero code comes only from the opcodes of its row (ILLEGAL from any) and with nothing
changed and no data; RES is 0 with every error but OVERSIZE. -/
def Obligations.StatusCodesReturned : Prop :=
  (Status.ok.code = 0 ∧ Status.insuffData.code = 1 ∧ Status.insuffSpace.code = 2 ∧ Status.oversize.code = 3 ∧
    Status.param.code = 4 ∧ Status.illegal.code = 5) ∧
  (∀ (s s' t : State) (c : FormatC), s.turn = (some (.consumer c), s') → step s = .next t →
    ∃ r : Response, t.trace = s'.trace ++ [{ response := some r, events := [] }] ∧ r.st.toNat ≤ 5 ∧
      (r.st ≠ 0 → r.dout = [] ∧ { t with trace := s'.trace } = s') ∧
      (r.st ≠ 0 → r.st ≠ 3 → r.res = 0) ∧
      (r.st = 1 → opField c.cmd ∈ ([0x11, 0x12, 0x13] : List Byte)) ∧
      (r.st = 2 → opField c.cmd = 0x10) ∧
      (r.st = 3 → opField c.cmd ∈ ([0x21, 0x22] : List Byte)) ∧
      (r.st = 4 → opField c.cmd ∈ ([0x01, 0x03] : List Byte)))
end

