-- ==== Sys2Proof/Laws/Decode.lean ====
section
/-! SUPPORT. The fields of words and the shape of the decoder: each field of a built word, the length check as an equation,
and what a successful or failed decoding says. -/

namespace Sys2Proof

theorem hasLength_iff (l : List Byte) (n : Nat) : hasLength l n = true ↔ l.length = n := by
  induction l generalizing n with
  | nil => cases n <;> simp [hasLength]
  | cons v vs ih => cases n <;> simp [hasLength, ih]

@[simp] theorem FormatC.wellFormed_iff (c : FormatC) : c.wellFormed = true ↔ c.din.length = dinLength c.cmd :=
  hasLength_iff _ _

@[simp] theorem FormatP.wellFormed_iff (p : FormatP) : p.wellFormed = true ↔ p.data.length = (immField p.ph).toNat :=
  hasLength_iff _ _

/-! ### Fields of a built word -/

theorem cmdWord_getLsbD (op r : Byte) (imm : Half) (i : Nat) (hi : i < 32) :
    (cmdWord op r imm).getLsbD i =
      if i < 16 then imm.getLsbD i else if i < 24 then r.getLsbD (i - 16) else op.getLsbD (i - 24) := by
  simp only [cmdWord, BitVec.getLsbD_or, BitVec.getLsbD_shiftLeft, BitVec.getLsbD_setWidth]
  split_ifs with h1 h2
  · simp [hi, h1, show i < 24 by omega]
  · simp [hi, h1, h2, show i - 16 < 32 by omega, BitVec.getLsbD_of_ge imm i (by omega)]
  · simp [hi, h1, h2, show i - 24 < 32 by omega, BitVec.getLsbD_of_ge r (i - 16) (by omega),
      BitVec.getLsbD_of_ge imm i (by omega)]

@[simp] theorem opField_cmdWord (op r : Byte) (imm : Half) : opField (cmdWord op r imm) = op := by
  apply BitVec.eq_of_getLsbD_eq
  intro i hi
  rw [opField, BitVec.getLsbD_extractLsb', cmdWord_getLsbD _ _ _ _ (by omega), if_neg (by omega), if_neg (by omega),
    Nat.add_sub_cancel_left]
  simp [hi]

@[simp] theorem rField_cmdWord (op r : Byte) (imm : Half) : rField (cmdWord op r imm) = r := by
  apply BitVec.eq_of_getLsbD_eq
  intro i hi
  rw [rField, BitVec.getLsbD_extractLsb', cmdWord_getLsbD _ _ _ _ (by omega), if_neg (by omega), if_pos (by omega),
    Nat.add_sub_cancel_left]
  simp [hi]

@[simp] theorem immField_cmdWord (op r : Byte) (imm : Half) : immField (cmdWord op r imm) = imm := by
  apply BitVec.eq_of_getLsbD_eq
  intro i hi
  rw [immField, BitVec.getLsbD_extractLsb', cmdWord_getLsbD _ _ _ _ (by omega), if_pos (by omega), Nat.zero_add]
  simp [hi]

/-- Two words with the same OP, R and IMM are the same word. -/
theorem word_ext {v w : Word} (h1 : opField v = opField w) (h2 : rField v = rField w) (h3 : immField v = immField w) :
    v = w := by
  have bit : ∀ (lo len : Nat), v.extractLsb' lo len = w.extractLsb' lo len → ∀ i, lo ≤ i → i < lo + len →
      v.getLsbD i = w.getLsbD i := by
    intro lo len h i hlo hhi
    have := congrArg (fun x => x.getLsbD (i - lo)) h
    simpa [BitVec.getLsbD_extractLsb', show i - lo < len by omega, show lo + (i - lo) = i by omega] using this
  apply BitVec.eq_of_getLsbD_eq
  intro i hi
  by_cases a1 : i < 16
  · exact bit 0 16 h3 i (by omega) (by omega)
  by_cases a2 : i < 24
  · exact bit 16 8 h2 i (by omega) (by omega)
  · exact bit 24 8 h1 i (by omega) (by omega)

/-- PH[31:16] is 0x4000 exactly when the two bytes of the header are 0x40 and 0 (R95). -/
theorem prefixField_eq_iff (w : Word) : prefixField w = 0x4000 ↔ opField w = 0x40 ∧ rField w = 0 := by
  have key : ∀ i, i < 16 → (prefixField w).getLsbD i =
      if i < 8 then (rField w).getLsbD i else (opField w).getLsbD (i - 8) := by
    intro i hi
    simp only [prefixField, rField, opField, BitVec.getLsbD_extractLsb']
    split_ifs with h
    · simp [h, hi]
    · simp [hi, show i - 8 < 8 by omega, show 24 + (i - 8) = 16 + i by omega]
  constructor
  · intro h
    constructor <;> apply BitVec.eq_of_getLsbD_eq <;> intro i hi
    · have := key (i + 8) (by omega)
      rw [h, if_neg (by omega), Nat.add_sub_cancel] at this
      rw [← this]
      interval_cases i <;> rfl
    · have := key i (by omega)
      rw [h, if_pos hi] at this
      rw [← this]
      interval_cases i <;> rfl
  · rintro ⟨h1, h2⟩
    apply BitVec.eq_of_getLsbD_eq
    intro i hi
    rw [key i hi, h1, h2]
    interval_cases i <;> rfl

/-- A word is its three fields. -/
theorem cmdWord_fields (w : Word) : cmdWord (opField w) (rField w) (immField w) = w := by
  apply word_ext <;> simp

@[simp] theorem selRing_ringSel (b : RingId) : selRing (ringSel b) = b := by cases b <;> rfl

@[simp] theorem ringSel_reserved (b : RingId) : (ringSel b).extractLsb' 1 7 = 0 := by cases b <;> rfl

theorem ringSel_selRing (r : Byte) (h : r.extractLsb' 1 7 = 0) : ringSel (selRing r) = r := by
  revert r; decide

/-! ### Inversion of the decoder -/

theorem decode_consumer (c : FormatC) :
    decode (.consumer c) = if c.din.length = dinLength c.cmd then decodeCommand c else .error .notATransaction := by
  show (if c.wellFormed = true then decodeCommand c else .error .notATransaction) = _
  exact if_congr (FormatC.wellFormed_iff c) rfl rfl

theorem decode_producer (p : FormatP) :
    decode (.producer p) =
      if p.data.length = (immField p.ph).toNat then decodeHeader p else .error .notATransaction := by
  show (if p.wellFormed = true then decodeHeader p else .error .notATransaction) = _
  exact if_congr (FormatP.wellFormed_iff p) rfl rfl

/-- What a consumer transaction that decodes is: the right data length, and a row whose opcode and reserved fields match. -/
theorem decode_consumer_ok {c : FormatC} {i : Instr} (h : decode (.consumer c) = .ok i) :
    c.din.length = dinLength c.cmd ∧ decodeCommand c = .ok i := by
  rw [decode_consumer] at h
  split at h
  · exact ⟨‹_›, h⟩
  · cases h

/-- What a producer transaction does in the decoder, whatever it is. -/
theorem decode_producer_cases (p : FormatP) :
    (p.data.length ≠ (immField p.ph).toNat ∧ decode (.producer p) = .error .notATransaction) ∨
    (p.data.length = (immField p.ph).toNat ∧ prefixField p.ph ≠ 0x4000 ∧ decode (.producer p) = .error .malformedHeader) ∨
    (p.data.length = (immField p.ph).toNat ∧ prefixField p.ph = 0x4000 ∧ decode (.producer p) = .ok (.rx p.data)) := by
  rw [decode_producer, decodeHeader]
  by_cases hl : p.data.length = (immField p.ph).toNat
  · by_cases hp : prefixField p.ph = 0x4000
    · exact .inr (.inr ⟨hl, hp, by rw [if_pos hl, if_pos hp]⟩)
    · exact .inr (.inl ⟨hl, hp, by rw [if_pos hl, if_neg hp]⟩)
  · exact .inl ⟨hl, if_neg hl⟩

theorem row_eq_ok {b : Bool} {i j : Instr} : row b i = .ok j ↔ b = true ∧ i = j := by
  unfold row; cases b <;> simp

theorem row_eq_error {b : Bool} {i : Instr} {r : Reject} : row b i = .error r ↔ b = false ∧ .reservedField = r := by
  unfold row; cases b <;> simp

/-- A command never decodes to RX, the producer's instruction. -/
theorem decodeCommand_ne_rx (c : FormatC) (d : List Byte) : decodeCommand c ≠ .ok (.rx d) := by
  intro h
  simp only [decodeCommand] at h
  repeat' split at h
  all_goals first | cases (row_eq_ok.1 h).2 | cases h

/-- A command is rejected only as an illegal opcode or for a reserved field. -/
theorem decodeCommand_error {c : FormatC} {r : Reject} (h : decodeCommand c = .error r) :
    r = .illegalOpcode ∨ r = .reservedField := by
  simp only [decodeCommand] at h
  repeat' split at h
  all_goals first | exact .inr (row_eq_error.1 h).2.symm | (cases h; exact .inl rfl)

end Sys2Proof
end

