-- ==== Sys2Proof/Laws/Registers.lean ====
section
/-! SUPPORT. The register map and the field encodings of MODE and PKTDEF: each decoding undoes its encoding, and a legal
definition read back is the value written. -/

namespace Sys2Proof.Machine

@[simp] theorem csrOf_num (c : Csr) : csrOf c.num = some c := by cases c <;> rfl

theorem csrOf_eq_some {r : Byte} {c : Csr} (h : csrOf r = some c) : r = c.num := by
  revert r; cases c <;> decide

theorem csrOf_eq_none_iff (r : Byte) : csrOf r = none ↔ r = 0x07 ∨ 0x12 ≤ r.toNat := by
  revert r; decide

@[simp] theorem SerialMode.ofBits_bits (m : SerialMode) : SerialMode.ofBits m.bits = some m := by cases m <;> rfl

theorem SerialMode.bits_of_ofBits {v : BitVec 2} {m : SerialMode} (h : SerialMode.ofBits v = some m) : m.bits = v := by
  revert v; cases m <;> decide

@[simp] theorem LenWidth.ofBits_bits (w : LenWidth) : LenWidth.ofBits w.bits = some w := by cases w <;> rfl

theorem LenWidth.bits_of_ofBits {v : BitVec 2} {w : LenWidth} (h : LenWidth.ofBits v = some w) : w.bits = v := by
  revert v; cases w <;> decide

/-- A definition that a word gives is legal (R33). -/
theorem PacketDef.legal_of_ofWord {v : Word} {d : PacketDef} (h : PacketDef.ofWord v = some d) : d.legal = true := by
  simp only [PacketDef.ofWord] at h
  split_ifs at h
  split at h
  · simp at h
  · split_ifs at h with hl
    injection h with h
    rwa [← h]

theorem bitAt_getLsbD (v : Bool) (n i : Nat) (hi : i < 32) : (bitAt v n).getLsbD i = (decide (i = n) && v) := by
  simp only [bitAt, BitVec.getLsbD_shiftLeft, BitVec.getLsbD_setWidth, BitVec.getLsbD_ofBool]
  by_cases h : i = n
  · subst h; simp [hi]
  · by_cases h2 : i < n
    · simp [h, h2]
    · simp [h, show ¬ i - n = 0 by omega]

theorem PacketDef.word_getLsbD (d : PacketDef) (i : Nat) (hi : i < 32) :
    d.word.getLsbD i =
      if i < 8 then d.hdr.getLsbD i else if i < 16 then d.ofs.getLsbD (i - 8) else if i = 16 then d.var
      else if i < 19 then d.lw.bits.getLsbD (i - 17) else if i = 31 then d.cfg else false := by
  simp only [PacketDef.word, BitVec.getLsbD_or, bitAt_getLsbD _ _ _ hi, BitVec.getLsbD_shiftLeft, BitVec.getLsbD_setWidth]
  have e1 : ∀ j, 8 ≤ j → d.hdr.getLsbD j = false := fun j => BitVec.getLsbD_of_ge _ _
  have e2 : ∀ j, 8 ≤ j → d.ofs.getLsbD j = false := fun j => BitVec.getLsbD_of_ge _ _
  have e3 : ∀ j, 2 ≤ j → d.lw.bits.getLsbD j = false := fun j => BitVec.getLsbD_of_ge _ _
  split_ifs with h1 h2 h3 h4 h5
  · simp [hi, h1, show i < 17 by omega, show ¬ i = 31 by omega, show ¬ i = 16 by omega]
  · simp [hi, h1, show i < 17 by omega, show ¬ i = 31 by omega, show ¬ i = 16 by omega, e1 i (by omega),
      show i - 8 < 32 by omega]
  · subst h3; simp
  · simp [hi, h1, h3, show ¬ i < 17 by omega, show ¬ i = 31 by omega, e1 i (by omega), e2 (i - 8) (by omega),
      show i - 17 < 32 by omega]
  · subst h5; simp
  · simp [h3, h5, e1 i (by omega), e2 (i - 8) (by omega), e3 (i - 17) (by omega)]

/-- The bits of a built PKTDEF word, field by field (R32). -/
theorem PacketDef.word_fields (d : PacketDef) :
    d.word.extractLsb' 0 8 = d.hdr ∧ d.word.extractLsb' 8 8 = d.ofs ∧ d.word.getLsbD 16 = d.var ∧
    d.word.extractLsb' 17 2 = d.lw.bits ∧ d.word.extractLsb' 19 12 = 0 ∧ d.word.getLsbD 31 = d.cfg := by
  refine ⟨?_, ?_, ?_, ?_, ?_, ?_⟩
  · apply BitVec.eq_of_getLsbD_eq
    intro i hi
    rw [BitVec.getLsbD_extractLsb', d.word_getLsbD _ (by omega), if_pos (by omega)]
    simp [hi]
  · apply BitVec.eq_of_getLsbD_eq
    intro i hi
    rw [BitVec.getLsbD_extractLsb', d.word_getLsbD _ (by omega), if_neg (by omega), if_pos (by omega)]
    simp [hi]
  · rw [d.word_getLsbD _ (by omega)]; rfl
  · apply BitVec.eq_of_getLsbD_eq
    intro i hi
    rw [BitVec.getLsbD_extractLsb', d.word_getLsbD _ (by omega), if_neg (by omega), if_neg (by omega), if_neg (by omega),
      if_pos (by omega)]
    simp [hi]
  · apply BitVec.eq_of_getLsbD_eq
    intro i hi
    rw [BitVec.getLsbD_extractLsb', d.word_getLsbD _ (by omega), if_neg (by omega), if_neg (by omega), if_neg (by omega),
      if_neg (by omega), if_neg (by omega)]
    simp
  · rw [d.word_getLsbD _ (by omega)]; rfl

/-- Two words with the same fields of PKTDEF are the same word. -/
theorem word_ext_fields {v w : Word} (h0 : v.extractLsb' 0 8 = w.extractLsb' 0 8)
    (h1 : v.extractLsb' 8 8 = w.extractLsb' 8 8) (h2 : v.getLsbD 16 = w.getLsbD 16)
    (h3 : v.extractLsb' 17 2 = w.extractLsb' 17 2) (h4 : v.extractLsb' 19 12 = w.extractLsb' 19 12)
    (h5 : v.getLsbD 31 = w.getLsbD 31) : v = w := by
  have bit : ∀ (lo len : Nat), v.extractLsb' lo len = w.extractLsb' lo len → ∀ i, lo ≤ i → i < lo + len →
      v.getLsbD i = w.getLsbD i := by
    intro lo len h i hlo hhi
    have := congrArg (fun x => x.getLsbD (i - lo)) h
    simpa [BitVec.getLsbD_extractLsb', show i - lo < len by omega, show lo + (i - lo) = i by omega] using this
  apply BitVec.eq_of_getLsbD_eq
  intro i hi
  by_cases a0 : i < 8
  · exact bit 0 8 h0 i (by omega) (by omega)
  by_cases a1 : i < 16
  · exact bit 8 8 h1 i (by omega) (by omega)
  by_cases a2 : i = 16
  · rw [a2]; exact h2
  by_cases a3 : i < 19
  · exact bit 17 2 h3 i (by omega) (by omega)
  by_cases a4 : i < 31
  · exact bit 19 12 h4 i (by omega) (by omega)
  · rw [show i = 31 by omega]; exact h5

/-- What a legal PKTDEF value decodes to has that value as its word (R32, R33). -/
theorem PacketDef.word_of_ofWord {v : Word} {d : PacketDef} (h : PacketDef.ofWord v = some d) : d.word = v := by
  simp only [PacketDef.ofWord] at h
  split_ifs at h with hr
  split at h
  · simp at h
  · next lw hlw =>
    split_ifs at h
    injection h with h
    obtain ⟨e0, e1, e2, e3, e4, e5⟩ := d.word_fields
    subst h
    exact word_ext_fields e0 e1 e2 (e3.trans (LenWidth.bits_of_ofBits hlw)) (e4.trans hr.symm) e5

end Sys2Proof.Machine
end

