-- ==== Sys2Proof/Laws/State.lean ====
section
/-! SUPPORT. One lemma per field per named update of the state, each true by unfolding the update. -/

namespace Sys2Proof.Machine

/-! ### `setRing` -/

@[simp] theorem State.setRing_params (s : State) (b : RingId) (r : Ring) : (s.setRing b r).params = s.params := by
  cases b <;> rfl

@[simp] theorem State.setRing_mode (s : State) (b : RingId) (r : Ring) : (s.setRing b r).mode = s.mode := by
  cases b <;> rfl

@[simp] theorem State.setRing_aten (s : State) (b : RingId) (r : Ring) : (s.setRing b r).aten = s.aten := by
  cases b <;> rfl

@[simp] theorem State.setRing_pktdef (s : State) (b : RingId) (r : Ring) : (s.setRing b r).pktdef = s.pktdef := by
  cases b <;> rfl

@[simp] theorem State.setRing_pktpay (s : State) (b : RingId) (r : Ring) : (s.setRing b r).pktpay = s.pktpay := by
  cases b <;> rfl

@[simp] theorem State.setRing_term (s : State) (b : RingId) (r : Ring) : (s.setRing b r).term = s.term := by
  cases b <;> rfl

@[simp] theorem State.setRing_even (s : State) (b : RingId) (r : Ring) : (s.setRing b r).even = s.even := by
  cases b <;> rfl

@[simp] theorem State.setRing_ovf (s : State) (b : RingId) (r : Ring) : (s.setRing b r).ovf = s.ovf := by
  cases b <;> rfl

@[simp] theorem State.setRing_perr (s : State) (b : RingId) (r : Ring) : (s.setRing b r).perr = s.perr := by
  cases b <;> rfl

@[simp] theorem State.setRing_schedule (s : State) (b : RingId) (r : Ring) : (s.setRing b r).schedule = s.schedule := by
  cases b <;> rfl

@[simp] theorem State.setRing_commands (s : State) (b : RingId) (r : Ring) : (s.setRing b r).commands = s.commands := by
  cases b <;> rfl

@[simp] theorem State.setRing_spans (s : State) (b : RingId) (r : Ring) : (s.setRing b r).spans = s.spans := by
  cases b <;> rfl

@[simp] theorem State.setRing_trace (s : State) (b : RingId) (r : Ring) : (s.setRing b r).trace = s.trace := by
  cases b <;> rfl

@[simp] theorem State.setRing_input_inRing (s : State) (r : Ring) : (s.setRing .input r).inRing = r := rfl

@[simp] theorem State.setRing_input_outRing (s : State) (r : Ring) : (s.setRing .input r).outRing = s.outRing := rfl

@[simp] theorem State.setRing_output_inRing (s : State) (r : Ring) : (s.setRing .output r).inRing = s.inRing := rfl

@[simp] theorem State.setRing_output_outRing (s : State) (r : Ring) : (s.setRing .output r).outRing = r := rfl

@[simp] theorem State.setRing_ring_self (s : State) (b : RingId) (r : Ring) : (s.setRing b r).ring b = r := by
  cases b <;> rfl

theorem State.setRing_ring_other (s : State) (b c : RingId) (r : Ring) (h : c ≠ b) :
    (s.setRing b r).ring c = s.ring c := by
  cases b <;> cases c <;> first | rfl | exact absurd rfl h

@[simp] theorem State.setRing_ring (s : State) (b : RingId) : s.setRing b (s.ring b) = s := by
  cases b <;> rfl

@[simp] theorem State.setRing_depth (s : State) (b c : RingId) (r : Ring) : (s.setRing b r).depth c = s.depth c := by
  cases b <;> cases c <;> rfl

@[simp] theorem State.ring_input (s : State) : s.ring .input = s.inRing := rfl

@[simp] theorem State.ring_output (s : State) : s.ring .output = s.outRing := rfl


/-! ### `record` -/

@[simp] theorem State.record_params (s : State) (o : Output) : (s.record o).params = s.params := rfl

@[simp] theorem State.record_inRing (s : State) (o : Output) : (s.record o).inRing = s.inRing := rfl

@[simp] theorem State.record_outRing (s : State) (o : Output) : (s.record o).outRing = s.outRing := rfl

@[simp] theorem State.record_mode (s : State) (o : Output) : (s.record o).mode = s.mode := rfl

@[simp] theorem State.record_aten (s : State) (o : Output) : (s.record o).aten = s.aten := rfl

@[simp] theorem State.record_pktdef (s : State) (o : Output) : (s.record o).pktdef = s.pktdef := rfl

@[simp] theorem State.record_pktpay (s : State) (o : Output) : (s.record o).pktpay = s.pktpay := rfl

@[simp] theorem State.record_term (s : State) (o : Output) : (s.record o).term = s.term := rfl

@[simp] theorem State.record_even (s : State) (o : Output) : (s.record o).even = s.even := rfl

@[simp] theorem State.record_ovf (s : State) (o : Output) : (s.record o).ovf = s.ovf := rfl

@[simp] theorem State.record_perr (s : State) (o : Output) : (s.record o).perr = s.perr := rfl

@[simp] theorem State.record_schedule (s : State) (o : Output) : (s.record o).schedule = s.schedule := rfl

@[simp] theorem State.record_commands (s : State) (o : Output) : (s.record o).commands = s.commands := rfl

@[simp] theorem State.record_spans (s : State) (o : Output) : (s.record o).spans = s.spans := rfl

@[simp] theorem State.record_trace (s : State) (o : Output) : (s.record o).trace = s.trace ++ [o] := rfl

@[simp] theorem State.record_ring (s : State) (o : Output) (b : RingId) : (s.record o).ring b = s.ring b := by
  cases b <;> rfl

@[simp] theorem State.record_depth (s : State) (o : Output) (b : RingId) : (s.record o).depth b = s.depth b := by
  cases b <;> rfl


/-! ### Status codes -/

@[simp] theorem Status.code_ok : Status.code .ok = 0 := rfl

@[simp] theorem Status.code_insuffData : Status.code .insuffData = 1 := rfl

@[simp] theorem Status.code_insuffSpace : Status.code .insuffSpace = 2 := rfl

@[simp] theorem Status.code_oversize : Status.code .oversize = 3 := rfl

@[simp] theorem Status.code_param : Status.code .param = 4 := rfl

@[simp] theorem Status.code_illegal : Status.code .illegal = 5 := rfl

/-- Two statuses with the same code are the same status. -/
theorem Status.code_injective {a b : Status} (h : a.code = b.code) : a = b := by revert h; cases a <;> cases b <;> decide

/-- No status has a reserved code (R102, U17). -/
theorem Status.code_le (a : Status) : a.code.toNat ≤ 5 := by cases a <;> decide

/-! ### `answer` -/

@[simp] theorem State.answer_params (s : State) (st : Status) (res : Word) (dout : List Byte) : (s.answer st res dout).params = s.params := rfl

@[simp] theorem State.answer_inRing (s : State) (st : Status) (res : Word) (dout : List Byte) : (s.answer st res dout).inRing = s.inRing := rfl

@[simp] theorem State.answer_outRing (s : State) (st : Status) (res : Word) (dout : List Byte) : (s.answer st res dout).outRing = s.outRing := rfl

@[simp] theorem State.answer_mode (s : State) (st : Status) (res : Word) (dout : List Byte) : (s.answer st res dout).mode = s.mode := rfl

@[simp] theorem State.answer_aten (s : State) (st : Status) (res : Word) (dout : List Byte) : (s.answer st res dout).aten = s.aten := rfl

@[simp] theorem State.answer_pktdef (s : State) (st : Status) (res : Word) (dout : List Byte) : (s.answer st res dout).pktdef = s.pktdef := rfl

@[simp] theorem State.answer_pktpay (s : State) (st : Status) (res : Word) (dout : List Byte) : (s.answer st res dout).pktpay = s.pktpay := rfl

@[simp] theorem State.answer_term (s : State) (st : Status) (res : Word) (dout : List Byte) : (s.answer st res dout).term = s.term := rfl

@[simp] theorem State.answer_even (s : State) (st : Status) (res : Word) (dout : List Byte) : (s.answer st res dout).even = s.even := rfl

@[simp] theorem State.answer_ovf (s : State) (st : Status) (res : Word) (dout : List Byte) : (s.answer st res dout).ovf = s.ovf := rfl

@[simp] theorem State.answer_perr (s : State) (st : Status) (res : Word) (dout : List Byte) : (s.answer st res dout).perr = s.perr := rfl

@[simp] theorem State.answer_schedule (s : State) (st : Status) (res : Word) (dout : List Byte) : (s.answer st res dout).schedule = s.schedule := rfl

@[simp] theorem State.answer_commands (s : State) (st : Status) (res : Word) (dout : List Byte) : (s.answer st res dout).commands = s.commands := rfl

@[simp] theorem State.answer_spans (s : State) (st : Status) (res : Word) (dout : List Byte) : (s.answer st res dout).spans = s.spans := rfl

@[simp] theorem State.answer_trace (s : State) (st : Status) (res : Word) (dout : List Byte) : (s.answer st res dout).trace = s.trace ++ [{ response := some { st := st.code, res := res, dout := dout }, events := [] }] := rfl

@[simp] theorem State.answer_ring (s : State) (st : Status) (res : Word) (dout : List Byte) (b : RingId) : (s.answer st res dout).ring b = s.ring b := by
  cases b <;> rfl

@[simp] theorem State.answer_depth (s : State) (st : Status) (res : Word) (dout : List Byte) (b : RingId) : (s.answer st res dout).depth b = s.depth b := by
  cases b <;> rfl


/-! ### `produced` -/

@[simp] theorem State.produced_params (s : State) (evs : List Event) : (s.produced evs).params = s.params := rfl

@[simp] theorem State.produced_inRing (s : State) (evs : List Event) : (s.produced evs).inRing = s.inRing := rfl

@[simp] theorem State.produced_outRing (s : State) (evs : List Event) : (s.produced evs).outRing = s.outRing := rfl

@[simp] theorem State.produced_mode (s : State) (evs : List Event) : (s.produced evs).mode = s.mode := rfl

@[simp] theorem State.produced_aten (s : State) (evs : List Event) : (s.produced evs).aten = s.aten := rfl

@[simp] theorem State.produced_pktdef (s : State) (evs : List Event) : (s.produced evs).pktdef = s.pktdef := rfl

@[simp] theorem State.produced_pktpay (s : State) (evs : List Event) : (s.produced evs).pktpay = s.pktpay := rfl

@[simp] theorem State.produced_term (s : State) (evs : List Event) : (s.produced evs).term = s.term := rfl

@[simp] theorem State.produced_even (s : State) (evs : List Event) : (s.produced evs).even = s.even := rfl

@[simp] theorem State.produced_ovf (s : State) (evs : List Event) : (s.produced evs).ovf = s.ovf := rfl

@[simp] theorem State.produced_perr (s : State) (evs : List Event) : (s.produced evs).perr = s.perr := rfl

@[simp] theorem State.produced_schedule (s : State) (evs : List Event) : (s.produced evs).schedule = s.schedule := rfl

@[simp] theorem State.produced_commands (s : State) (evs : List Event) : (s.produced evs).commands = s.commands := rfl

@[simp] theorem State.produced_spans (s : State) (evs : List Event) : (s.produced evs).spans = s.spans := rfl

@[simp] theorem State.produced_trace (s : State) (evs : List Event) : (s.produced evs).trace = s.trace ++ [{ response := none, events := evs }] := rfl

@[simp] theorem State.produced_ring (s : State) (evs : List Event) (b : RingId) : (s.produced evs).ring b = s.ring b := by
  cases b <;> rfl

@[simp] theorem State.produced_depth (s : State) (evs : List Event) (b : RingId) : (s.produced evs).depth b = s.depth b := by
  cases b <;> rfl


/-! ### `setMode` -/

@[simp] theorem State.setMode_params (s : State) (v : SerialMode) : (s.setMode v).params = s.params := rfl

@[simp] theorem State.setMode_inRing (s : State) (v : SerialMode) : (s.setMode v).inRing = s.inRing := rfl

@[simp] theorem State.setMode_outRing (s : State) (v : SerialMode) : (s.setMode v).outRing = s.outRing := rfl

@[simp] theorem State.setMode_mode (s : State) (v : SerialMode) : (s.setMode v).mode = v := rfl

@[simp] theorem State.setMode_aten (s : State) (v : SerialMode) : (s.setMode v).aten = s.aten := rfl

@[simp] theorem State.setMode_pktdef (s : State) (v : SerialMode) : (s.setMode v).pktdef = s.pktdef := rfl

@[simp] theorem State.setMode_pktpay (s : State) (v : SerialMode) : (s.setMode v).pktpay = s.pktpay := rfl

@[simp] theorem State.setMode_term (s : State) (v : SerialMode) : (s.setMode v).term = s.term := rfl

@[simp] theorem State.setMode_even (s : State) (v : SerialMode) : (s.setMode v).even = s.even := rfl

@[simp] theorem State.setMode_ovf (s : State) (v : SerialMode) : (s.setMode v).ovf = s.ovf := rfl

@[simp] theorem State.setMode_perr (s : State) (v : SerialMode) : (s.setMode v).perr = s.perr := rfl

@[simp] theorem State.setMode_schedule (s : State) (v : SerialMode) : (s.setMode v).schedule = s.schedule := rfl

@[simp] theorem State.setMode_commands (s : State) (v : SerialMode) : (s.setMode v).commands = s.commands := rfl

@[simp] theorem State.setMode_spans (s : State) (v : SerialMode) : (s.setMode v).spans = s.spans := rfl

@[simp] theorem State.setMode_trace (s : State) (v : SerialMode) : (s.setMode v).trace = s.trace := rfl

@[simp] theorem State.setMode_ring (s : State) (v : SerialMode) (b : RingId) : (s.setMode v).ring b = s.ring b := by
  cases b <;> rfl

@[simp] theorem State.setMode_depth (s : State) (v : SerialMode) (b : RingId) : (s.setMode v).depth b = s.depth b := by
  cases b <;> rfl


/-! ### `setAten` -/

@[simp] theorem State.setAten_params (s : State) (v : Bool) : (s.setAten v).params = s.params := rfl

@[simp] theorem State.setAten_inRing (s : State) (v : Bool) : (s.setAten v).inRing = s.inRing := rfl

@[simp] theorem State.setAten_outRing (s : State) (v : Bool) : (s.setAten v).outRing = s.outRing := rfl

@[simp] theorem State.setAten_mode (s : State) (v : Bool) : (s.setAten v).mode = s.mode := rfl

@[simp] theorem State.setAten_aten (s : State) (v : Bool) : (s.setAten v).aten = v := rfl

@[simp] theorem State.setAten_pktdef (s : State) (v : Bool) : (s.setAten v).pktdef = s.pktdef := rfl

@[simp] theorem State.setAten_pktpay (s : State) (v : Bool) : (s.setAten v).pktpay = s.pktpay := rfl

@[simp] theorem State.setAten_term (s : State) (v : Bool) : (s.setAten v).term = s.term := rfl

@[simp] theorem State.setAten_even (s : State) (v : Bool) : (s.setAten v).even = s.even := rfl

@[simp] theorem State.setAten_ovf (s : State) (v : Bool) : (s.setAten v).ovf = s.ovf := rfl

@[simp] theorem State.setAten_perr (s : State) (v : Bool) : (s.setAten v).perr = s.perr := rfl

@[simp] theorem State.setAten_schedule (s : State) (v : Bool) : (s.setAten v).schedule = s.schedule := rfl

@[simp] theorem State.setAten_commands (s : State) (v : Bool) : (s.setAten v).commands = s.commands := rfl

@[simp] theorem State.setAten_spans (s : State) (v : Bool) : (s.setAten v).spans = s.spans := rfl

@[simp] theorem State.setAten_trace (s : State) (v : Bool) : (s.setAten v).trace = s.trace := rfl

@[simp] theorem State.setAten_ring (s : State) (v : Bool) (b : RingId) : (s.setAten v).ring b = s.ring b := by
  cases b <;> rfl

@[simp] theorem State.setAten_depth (s : State) (v : Bool) (b : RingId) : (s.setAten v).depth b = s.depth b := by
  cases b <;> rfl


/-! ### `setPktdef` -/

@[simp] theorem State.setPktdef_params (s : State) (v : PacketDef) : (s.setPktdef v).params = s.params := rfl

@[simp] theorem State.setPktdef_inRing (s : State) (v : PacketDef) : (s.setPktdef v).inRing = s.inRing := rfl

@[simp] theorem State.setPktdef_outRing (s : State) (v : PacketDef) : (s.setPktdef v).outRing = s.outRing := rfl

@[simp] theorem State.setPktdef_mode (s : State) (v : PacketDef) : (s.setPktdef v).mode = s.mode := rfl

@[simp] theorem State.setPktdef_aten (s : State) (v : PacketDef) : (s.setPktdef v).aten = s.aten := rfl

@[simp] theorem State.setPktdef_pktdef (s : State) (v : PacketDef) : (s.setPktdef v).pktdef = v := rfl

@[simp] theorem State.setPktdef_pktpay (s : State) (v : PacketDef) : (s.setPktdef v).pktpay = s.pktpay := rfl

@[simp] theorem State.setPktdef_term (s : State) (v : PacketDef) : (s.setPktdef v).term = s.term := rfl

@[simp] theorem State.setPktdef_even (s : State) (v : PacketDef) : (s.setPktdef v).even = s.even := rfl

@[simp] theorem State.setPktdef_ovf (s : State) (v : PacketDef) : (s.setPktdef v).ovf = s.ovf := rfl

@[simp] theorem State.setPktdef_perr (s : State) (v : PacketDef) : (s.setPktdef v).perr = s.perr := rfl

@[simp] theorem State.setPktdef_schedule (s : State) (v : PacketDef) : (s.setPktdef v).schedule = s.schedule := rfl

@[simp] theorem State.setPktdef_commands (s : State) (v : PacketDef) : (s.setPktdef v).commands = s.commands := rfl

@[simp] theorem State.setPktdef_spans (s : State) (v : PacketDef) : (s.setPktdef v).spans = s.spans := rfl

@[simp] theorem State.setPktdef_trace (s : State) (v : PacketDef) : (s.setPktdef v).trace = s.trace := rfl

@[simp] theorem State.setPktdef_ring (s : State) (v : PacketDef) (b : RingId) : (s.setPktdef v).ring b = s.ring b := by
  cases b <;> rfl

@[simp] theorem State.setPktdef_depth (s : State) (v : PacketDef) (b : RingId) : (s.setPktdef v).depth b = s.depth b := by
  cases b <;> rfl


/-! ### `setPktpay` -/

@[simp] theorem State.setPktpay_params (s : State) (v : Half) : (s.setPktpay v).params = s.params := rfl

@[simp] theorem State.setPktpay_inRing (s : State) (v : Half) : (s.setPktpay v).inRing = s.inRing := rfl

@[simp] theorem State.setPktpay_outRing (s : State) (v : Half) : (s.setPktpay v).outRing = s.outRing := rfl

@[simp] theorem State.setPktpay_mode (s : State) (v : Half) : (s.setPktpay v).mode = s.mode := rfl

@[simp] theorem State.setPktpay_aten (s : State) (v : Half) : (s.setPktpay v).aten = s.aten := rfl

@[simp] theorem State.setPktpay_pktdef (s : State) (v : Half) : (s.setPktpay v).pktdef = s.pktdef := rfl

@[simp] theorem State.setPktpay_pktpay (s : State) (v : Half) : (s.setPktpay v).pktpay = v := rfl

@[simp] theorem State.setPktpay_term (s : State) (v : Half) : (s.setPktpay v).term = s.term := rfl

@[simp] theorem State.setPktpay_even (s : State) (v : Half) : (s.setPktpay v).even = s.even := rfl

@[simp] theorem State.setPktpay_ovf (s : State) (v : Half) : (s.setPktpay v).ovf = s.ovf := rfl

@[simp] theorem State.setPktpay_perr (s : State) (v : Half) : (s.setPktpay v).perr = s.perr := rfl

@[simp] theorem State.setPktpay_schedule (s : State) (v : Half) : (s.setPktpay v).schedule = s.schedule := rfl

@[simp] theorem State.setPktpay_commands (s : State) (v : Half) : (s.setPktpay v).commands = s.commands := rfl

@[simp] theorem State.setPktpay_spans (s : State) (v : Half) : (s.setPktpay v).spans = s.spans := rfl

@[simp] theorem State.setPktpay_trace (s : State) (v : Half) : (s.setPktpay v).trace = s.trace := rfl

@[simp] theorem State.setPktpay_ring (s : State) (v : Half) (b : RingId) : (s.setPktpay v).ring b = s.ring b := by
  cases b <;> rfl

@[simp] theorem State.setPktpay_depth (s : State) (v : Half) (b : RingId) : (s.setPktpay v).depth b = s.depth b := by
  cases b <;> rfl


/-! ### `setTerm` -/

@[simp] theorem State.setTerm_params (s : State) (v : Byte) : (s.setTerm v).params = s.params := rfl

@[simp] theorem State.setTerm_inRing (s : State) (v : Byte) : (s.setTerm v).inRing = s.inRing := rfl

@[simp] theorem State.setTerm_outRing (s : State) (v : Byte) : (s.setTerm v).outRing = s.outRing := rfl

@[simp] theorem State.setTerm_mode (s : State) (v : Byte) : (s.setTerm v).mode = s.mode := rfl

@[simp] theorem State.setTerm_aten (s : State) (v : Byte) : (s.setTerm v).aten = s.aten := rfl

@[simp] theorem State.setTerm_pktdef (s : State) (v : Byte) : (s.setTerm v).pktdef = s.pktdef := rfl

@[simp] theorem State.setTerm_pktpay (s : State) (v : Byte) : (s.setTerm v).pktpay = s.pktpay := rfl

@[simp] theorem State.setTerm_term (s : State) (v : Byte) : (s.setTerm v).term = v := rfl

@[simp] theorem State.setTerm_even (s : State) (v : Byte) : (s.setTerm v).even = s.even := rfl

@[simp] theorem State.setTerm_ovf (s : State) (v : Byte) : (s.setTerm v).ovf = s.ovf := rfl

@[simp] theorem State.setTerm_perr (s : State) (v : Byte) : (s.setTerm v).perr = s.perr := rfl

@[simp] theorem State.setTerm_schedule (s : State) (v : Byte) : (s.setTerm v).schedule = s.schedule := rfl

@[simp] theorem State.setTerm_commands (s : State) (v : Byte) : (s.setTerm v).commands = s.commands := rfl

@[simp] theorem State.setTerm_spans (s : State) (v : Byte) : (s.setTerm v).spans = s.spans := rfl

@[simp] theorem State.setTerm_trace (s : State) (v : Byte) : (s.setTerm v).trace = s.trace := rfl

@[simp] theorem State.setTerm_ring (s : State) (v : Byte) (b : RingId) : (s.setTerm v).ring b = s.ring b := by
  cases b <;> rfl

@[simp] theorem State.setTerm_depth (s : State) (v : Byte) (b : RingId) : (s.setTerm v).depth b = s.depth b := by
  cases b <;> rfl


/-! ### `setEven` -/

@[simp] theorem State.setEven_params (s : State) (v : BitVec 4) : (s.setEven v).params = s.params := rfl

@[simp] theorem State.setEven_inRing (s : State) (v : BitVec 4) : (s.setEven v).inRing = s.inRing := rfl

@[simp] theorem State.setEven_outRing (s : State) (v : BitVec 4) : (s.setEven v).outRing = s.outRing := rfl

@[simp] theorem State.setEven_mode (s : State) (v : BitVec 4) : (s.setEven v).mode = s.mode := rfl

@[simp] theorem State.setEven_aten (s : State) (v : BitVec 4) : (s.setEven v).aten = s.aten := rfl

@[simp] theorem State.setEven_pktdef (s : State) (v : BitVec 4) : (s.setEven v).pktdef = s.pktdef := rfl

@[simp] theorem State.setEven_pktpay (s : State) (v : BitVec 4) : (s.setEven v).pktpay = s.pktpay := rfl

@[simp] theorem State.setEven_term (s : State) (v : BitVec 4) : (s.setEven v).term = s.term := rfl

@[simp] theorem State.setEven_even (s : State) (v : BitVec 4) : (s.setEven v).even = v := rfl

@[simp] theorem State.setEven_ovf (s : State) (v : BitVec 4) : (s.setEven v).ovf = s.ovf := rfl

@[simp] theorem State.setEven_perr (s : State) (v : BitVec 4) : (s.setEven v).perr = s.perr := rfl

@[simp] theorem State.setEven_schedule (s : State) (v : BitVec 4) : (s.setEven v).schedule = s.schedule := rfl

@[simp] theorem State.setEven_commands (s : State) (v : BitVec 4) : (s.setEven v).commands = s.commands := rfl

@[simp] theorem State.setEven_spans (s : State) (v : BitVec 4) : (s.setEven v).spans = s.spans := rfl

@[simp] theorem State.setEven_trace (s : State) (v : BitVec 4) : (s.setEven v).trace = s.trace := rfl

@[simp] theorem State.setEven_ring (s : State) (v : BitVec 4) (b : RingId) : (s.setEven v).ring b = s.ring b := by
  cases b <;> rfl

@[simp] theorem State.setEven_depth (s : State) (v : BitVec 4) (b : RingId) : (s.setEven v).depth b = s.depth b := by
  cases b <;> rfl


/-! ### `setOvf` -/

@[simp] theorem State.setOvf_params (s : State) (v : Bool) : (s.setOvf v).params = s.params := rfl

@[simp] theorem State.setOvf_inRing (s : State) (v : Bool) : (s.setOvf v).inRing = s.inRing := rfl

@[simp] theorem State.setOvf_outRing (s : State) (v : Bool) : (s.setOvf v).outRing = s.outRing := rfl

@[simp] theorem State.setOvf_mode (s : State) (v : Bool) : (s.setOvf v).mode = s.mode := rfl

@[simp] theorem State.setOvf_aten (s : State) (v : Bool) : (s.setOvf v).aten = s.aten := rfl

@[simp] theorem State.setOvf_pktdef (s : State) (v : Bool) : (s.setOvf v).pktdef = s.pktdef := rfl

@[simp] theorem State.setOvf_pktpay (s : State) (v : Bool) : (s.setOvf v).pktpay = s.pktpay := rfl

@[simp] theorem State.setOvf_term (s : State) (v : Bool) : (s.setOvf v).term = s.term := rfl

@[simp] theorem State.setOvf_even (s : State) (v : Bool) : (s.setOvf v).even = s.even := rfl

@[simp] theorem State.setOvf_ovf (s : State) (v : Bool) : (s.setOvf v).ovf = v := rfl

@[simp] theorem State.setOvf_perr (s : State) (v : Bool) : (s.setOvf v).perr = s.perr := rfl

@[simp] theorem State.setOvf_schedule (s : State) (v : Bool) : (s.setOvf v).schedule = s.schedule := rfl

@[simp] theorem State.setOvf_commands (s : State) (v : Bool) : (s.setOvf v).commands = s.commands := rfl

@[simp] theorem State.setOvf_spans (s : State) (v : Bool) : (s.setOvf v).spans = s.spans := rfl

@[simp] theorem State.setOvf_trace (s : State) (v : Bool) : (s.setOvf v).trace = s.trace := rfl

@[simp] theorem State.setOvf_ring (s : State) (v : Bool) (b : RingId) : (s.setOvf v).ring b = s.ring b := by
  cases b <;> rfl

@[simp] theorem State.setOvf_depth (s : State) (v : Bool) (b : RingId) : (s.setOvf v).depth b = s.depth b := by
  cases b <;> rfl


/-! ### `setPerr` -/

@[simp] theorem State.setPerr_params (s : State) (v : Bool) : (s.setPerr v).params = s.params := rfl

@[simp] theorem State.setPerr_inRing (s : State) (v : Bool) : (s.setPerr v).inRing = s.inRing := rfl

@[simp] theorem State.setPerr_outRing (s : State) (v : Bool) : (s.setPerr v).outRing = s.outRing := rfl

@[simp] theorem State.setPerr_mode (s : State) (v : Bool) : (s.setPerr v).mode = s.mode := rfl

@[simp] theorem State.setPerr_aten (s : State) (v : Bool) : (s.setPerr v).aten = s.aten := rfl

@[simp] theorem State.setPerr_pktdef (s : State) (v : Bool) : (s.setPerr v).pktdef = s.pktdef := rfl

@[simp] theorem State.setPerr_pktpay (s : State) (v : Bool) : (s.setPerr v).pktpay = s.pktpay := rfl

@[simp] theorem State.setPerr_term (s : State) (v : Bool) : (s.setPerr v).term = s.term := rfl

@[simp] theorem State.setPerr_even (s : State) (v : Bool) : (s.setPerr v).even = s.even := rfl

@[simp] theorem State.setPerr_ovf (s : State) (v : Bool) : (s.setPerr v).ovf = s.ovf := rfl

@[simp] theorem State.setPerr_perr (s : State) (v : Bool) : (s.setPerr v).perr = v := rfl

@[simp] theorem State.setPerr_schedule (s : State) (v : Bool) : (s.setPerr v).schedule = s.schedule := rfl

@[simp] theorem State.setPerr_commands (s : State) (v : Bool) : (s.setPerr v).commands = s.commands := rfl

@[simp] theorem State.setPerr_spans (s : State) (v : Bool) : (s.setPerr v).spans = s.spans := rfl

@[simp] theorem State.setPerr_trace (s : State) (v : Bool) : (s.setPerr v).trace = s.trace := rfl

@[simp] theorem State.setPerr_ring (s : State) (v : Bool) (b : RingId) : (s.setPerr v).ring b = s.ring b := by
  cases b <;> rfl

@[simp] theorem State.setPerr_depth (s : State) (v : Bool) (b : RingId) : (s.setPerr v).depth b = s.depth b := by
  cases b <;> rfl


/-! ### `initialised` -/

@[simp] theorem State.initialised_params (s : State) (ic oc : Half) : (s.initialised ic oc).params = s.params := rfl

@[simp] theorem State.initialised_inRing (s : State) (ic oc : Half) : (s.initialised ic oc).inRing = s.inRing.initialised ic := rfl

@[simp] theorem State.initialised_outRing (s : State) (ic oc : Half) : (s.initialised ic oc).outRing = s.outRing.initialised oc := rfl

@[simp] theorem State.initialised_mode (s : State) (ic oc : Half) : (s.initialised ic oc).mode = .transparent := rfl

@[simp] theorem State.initialised_aten (s : State) (ic oc : Half) : (s.initialised ic oc).aten = s.aten := rfl

@[simp] theorem State.initialised_pktdef (s : State) (ic oc : Half) : (s.initialised ic oc).pktdef = { s.pktdef with cfg := false } := rfl

@[simp] theorem State.initialised_pktpay (s : State) (ic oc : Half) : (s.initialised ic oc).pktpay = s.pktpay := rfl

@[simp] theorem State.initialised_term (s : State) (ic oc : Half) : (s.initialised ic oc).term = s.term := rfl

@[simp] theorem State.initialised_even (s : State) (ic oc : Half) : (s.initialised ic oc).even = s.even := rfl

@[simp] theorem State.initialised_ovf (s : State) (ic oc : Half) : (s.initialised ic oc).ovf = false := rfl

@[simp] theorem State.initialised_perr (s : State) (ic oc : Half) : (s.initialised ic oc).perr = false := rfl

@[simp] theorem State.initialised_schedule (s : State) (ic oc : Half) : (s.initialised ic oc).schedule = s.schedule := rfl

@[simp] theorem State.initialised_commands (s : State) (ic oc : Half) : (s.initialised ic oc).commands = s.commands := rfl

@[simp] theorem State.initialised_spans (s : State) (ic oc : Half) : (s.initialised ic oc).spans = s.spans := rfl

@[simp] theorem State.initialised_trace (s : State) (ic oc : Half) : (s.initialised ic oc).trace = s.trace := rfl

@[simp] theorem State.initialised_depth (s : State) (ic oc : Half) (b : RingId) : (s.initialised ic oc).depth b = s.depth b := by
  cases b <;> rfl


/-! ### `arrive` -/

@[simp] theorem State.arrive_params (s : State) (turns : List Agent) (cs : List FormatC) (ps : List FormatP) : (s.arrive turns cs ps).params = s.params := rfl

@[simp] theorem State.arrive_inRing (s : State) (turns : List Agent) (cs : List FormatC) (ps : List FormatP) : (s.arrive turns cs ps).inRing = s.inRing := rfl

@[simp] theorem State.arrive_outRing (s : State) (turns : List Agent) (cs : List FormatC) (ps : List FormatP) : (s.arrive turns cs ps).outRing = s.outRing := rfl

@[simp] theorem State.arrive_mode (s : State) (turns : List Agent) (cs : List FormatC) (ps : List FormatP) : (s.arrive turns cs ps).mode = s.mode := rfl

@[simp] theorem State.arrive_aten (s : State) (turns : List Agent) (cs : List FormatC) (ps : List FormatP) : (s.arrive turns cs ps).aten = s.aten := rfl

@[simp] theorem State.arrive_pktdef (s : State) (turns : List Agent) (cs : List FormatC) (ps : List FormatP) : (s.arrive turns cs ps).pktdef = s.pktdef := rfl

@[simp] theorem State.arrive_pktpay (s : State) (turns : List Agent) (cs : List FormatC) (ps : List FormatP) : (s.arrive turns cs ps).pktpay = s.pktpay := rfl

@[simp] theorem State.arrive_term (s : State) (turns : List Agent) (cs : List FormatC) (ps : List FormatP) : (s.arrive turns cs ps).term = s.term := rfl

@[simp] theorem State.arrive_even (s : State) (turns : List Agent) (cs : List FormatC) (ps : List FormatP) : (s.arrive turns cs ps).even = s.even := rfl

@[simp] theorem State.arrive_ovf (s : State) (turns : List Agent) (cs : List FormatC) (ps : List FormatP) : (s.arrive turns cs ps).ovf = s.ovf := rfl

@[simp] theorem State.arrive_perr (s : State) (turns : List Agent) (cs : List FormatC) (ps : List FormatP) : (s.arrive turns cs ps).perr = s.perr := rfl

@[simp] theorem State.arrive_schedule (s : State) (turns : List Agent) (cs : List FormatC) (ps : List FormatP) : (s.arrive turns cs ps).schedule = s.schedule ++ turns := rfl

@[simp] theorem State.arrive_commands (s : State) (turns : List Agent) (cs : List FormatC) (ps : List FormatP) : (s.arrive turns cs ps).commands = s.commands ++ cs := rfl

@[simp] theorem State.arrive_spans (s : State) (turns : List Agent) (cs : List FormatC) (ps : List FormatP) : (s.arrive turns cs ps).spans = s.spans ++ ps := rfl

@[simp] theorem State.arrive_trace (s : State) (turns : List Agent) (cs : List FormatC) (ps : List FormatP) : (s.arrive turns cs ps).trace = s.trace := rfl

@[simp] theorem State.arrive_ring (s : State) (turns : List Agent) (cs : List FormatC) (ps : List FormatP) (b : RingId) : (s.arrive turns cs ps).ring b = s.ring b := by
  cases b <;> rfl

@[simp] theorem State.arrive_depth (s : State) (turns : List Agent) (cs : List FormatC) (ps : List FormatP) (b : RingId) : (s.arrive turns cs ps).depth b = s.depth b := by
  cases b <;> rfl


/-! ### Outcomes of the shared endings -/

@[simp] theorem finish_eq (s : State) (st : Status) (res : Word) (dout : List Byte) :
    finish s st res dout = .next (s.answer st res dout) := rfl

@[simp] theorem rejectTxn_notATransaction (s : State) : rejectTxn .notATransaction s = .refused .notATransaction := rfl

@[simp] theorem rejectTxn_illegalOpcode (s : State) : rejectTxn .illegalOpcode s = .next (s.answer .illegal 0 []) := rfl

@[simp] theorem rejectTxn_reservedField (s : State) : rejectTxn .reservedField s = .next (s.answer .illegal 0 []) := rfl

@[simp] theorem rejectTxn_malformedHeader (s : State) :
    rejectTxn .malformedHeader s = .next ((s.setPerr true).produced []) := rfl

theorem State.emit_length_le (s : State) (e : Event) : (s.emit e).length ≤ 1 := by
  unfold State.emit; split <;> simp

end Sys2Proof.Machine
end

