-- ==== Sys2Proof/Laws/Ring.lean ====
section
/-! SUPPORT. One lemma per ring primitive that says all it does on a ring that meets its invariant (spec/20_memory.md R62 to
R65): a peek answers the oldest bytes, a drop removes them, a push appends; and each keeps the invariant. -/

namespace Sys2Proof.Machine

theorem cellIndex_eq_ok {cap : Nat} (h : cap ≠ 0) (x : Nat) : cellIndex cap x = .ok (x % cap) := by
  simp [cellIndex, h]

@[simp] theorem Ring.held_length (r : Ring) : r.held.length = r.occ.toNat := by simp [Ring.held]

theorem Ring.held_getElem (r : Ring) (i : Nat) (h : i < r.held.length) :
    r.held[i] = (r.store.read (r.readCell i)).getD 0 := by
  simp [Ring.held]

namespace Ring.Bounded

variable {depth : Nat} {r : Ring}

theorem cap_ne_zero_of_pos (h : r.Bounded depth) {n : Nat} (hn : 0 < n) (hle : n ≤ r.occ.toNat) : r.cap ≠ 0 := by
  intro h0
  have := (h.empty_of_cap_zero h0).1
  rw [this] at hle
  simp at hle
  omega

theorem cap_pos (h0 : r.cap ≠ 0) : 0 < r.cap.toNat := by
  rcases Nat.eq_zero_or_pos r.cap.toNat with h | h
  · exact absurd (BitVec.eq_of_toNat_eq (by simpa using h)) h0
  · exact h

theorem readCell_lt (h0 : r.cap ≠ 0) (i : Nat) : r.readCell i < r.cap.toNat := Nat.mod_lt _ (cap_pos h0)

theorem writeCell_lt (h0 : r.cap ≠ 0) (i : Nat) : r.writeCell i < r.cap.toNat := Nat.mod_lt _ (cap_pos h0)

/-- The cell a push's byte i goes to, seen from the read cursor. -/
theorem writeCell_eq_readCell (h : r.Bounded depth) (h0 : r.cap ≠ 0) (i : Nat) :
    r.writeCell i = r.readCell (r.occ.toNat + i) := by
  simp only [Ring.writeCell, Ring.readCell, h.wr_eq h0]
  rw [Nat.mod_add_mod, Nat.add_assoc]

/-- Two indices less than a capacity apart name different cells. -/
theorem readCell_ne {i j : Nat} (h1 : i < j) (h2 : j - i < r.cap.toNat) : r.readCell i ≠ r.readCell j := by
  intro h
  have hm : (r.rd.toNat + i) % r.cap.toNat = (r.rd.toNat + j) % r.cap.toNat := h
  have hd := (Nat.modEq_iff_dvd' (by omega : r.rd.toNat + i ≤ r.rd.toNat + j)).1 hm
  have : r.rd.toNat + j - (r.rd.toNat + i) = j - i := by omega
  rw [this] at hd
  exact absurd (Nat.le_of_dvd (by omega) hd) (by omega)

end Ring.Bounded

namespace Ring.Inv

variable {depth : Nat} {r : Ring}

theorem read_readCell (h : r.Inv depth) {i : Nat} (hi : i < r.occ.toNat) :
    r.store.read (r.readCell i) = some (r.held[i]'(by simpa using hi)) := by
  obtain ⟨v, hv⟩ := Option.isSome_iff_exists.1 (h.held_written i hi)
  rw [Ring.held_getElem, hv]
  rfl

theorem memRead_readCell (h : r.Inv depth) {i : Nat} (hi : i < r.occ.toNat) :
    r.memRead depth (r.readCell i) = .ok (r.held[i]'(by simpa using hi)) := by
  have h0 := h.cap_ne_zero_of_pos (Nat.succ_pos i) hi
  have hlt := Ring.Bounded.readCell_lt h0 i
  have hd := h.cap_le_depth
  unfold Ring.memRead
  rw [if_pos ⟨hlt, hlt.trans_le hd⟩, h.read_readCell hi]

theorem readFrom_eq (h : r.Inv depth) (n : Nat) :
    ∀ i, i + n ≤ r.occ.toNat → r.readFrom depth i n = .ok ((r.held.drop i).take n) := by
  induction n with
  | zero => intro i _; simp [Ring.readFrom]
  | succ n ih =>
    intro i hi
    have hlt : i < r.occ.toNat := by omega
    have h0 := h.cap_ne_zero_of_pos (Nat.succ_pos i) hlt
    have hm := h.memRead_readCell hlt
    unfold Ring.readCell at hm
    rw [Ring.readFrom, cellIndex_eq_ok (Ring.Bounded.cap_pos h0).ne']
    simp only [bind, Except.bind, hm, ih (i + 1) (by omega)]
    rw [List.drop_eq_getElem_cons (i := i) (by simpa using hlt), List.take_succ_cons]

/-- RingPeek answers the n oldest bytes (R63). -/
theorem peek_eq (h : r.Inv depth) {n : Nat} (hn : n ≤ r.occ.toNat) : r.peek depth n = .ok (r.held.take n) := by
  simpa [Ring.peek] using h.readFrom_eq n 0 (by omega)

end Ring.Inv

namespace Ring.Bounded

variable {depth : Nat} {r : Ring}

theorem readCell_zero (h : r.Bounded depth) : r.readCell 0 = r.rd.toNat := by
  by_cases h0 : r.cap = 0
  · simp [Ring.readCell, (h.empty_of_cap_zero h0).2.1]
  · simpa [Ring.readCell] using Nat.mod_eq_of_lt (h.rd_lt_cap h0)

theorem writeCell_zero (h : r.Bounded depth) : r.writeCell 0 = r.wr.toNat := by
  by_cases h0 : r.cap = 0
  · simp [Ring.writeCell, (h.empty_of_cap_zero h0).2.2]
  · simpa [Ring.writeCell] using Nat.mod_eq_of_lt (h.wr_lt_cap h0)

theorem dropped_zero (h : r.Bounded depth) : r.dropped 0 = r := by
  simp [Ring.dropped, readCell_zero h]

/-- RingDrop removes the n oldest bytes (R64): RD and OCC move, nothing else. -/
theorem drop_eq (h : r.Bounded depth) {n : Nat} (hn : n ≤ r.occ.toNat) : r.drop n = .ok (r.dropped n) := by
  rcases Nat.eq_zero_or_pos n with rfl | hp
  · simp [Ring.drop, dropped_zero h]
  · have h0 := cap_ne_zero_of_pos h hp hn
    simp [Ring.drop, hp.ne', cellIndex_eq_ok (cap_pos h0).ne', Ring.dropped, Ring.readCell, bind,
      Except.bind]

end Ring.Bounded

/-- RingPeek, whenever it answers, in any state: it answers n bytes (R63). -/
theorem Ring.peek_length {depth : Nat} {r : Ring} {n : Nat} {p : List Byte} (h : r.peek depth n = .ok p) : p.length = n := by
  unfold Ring.peek at h
  suffices ∀ n i p, r.readFrom depth i n = .ok p → p.length = n from this n 0 p h
  intro n
  induction n with
  | zero => intro i p h; cases h; rfl
  | succ n ih =>
    intro i p h
    rw [Ring.readFrom] at h
    rcases hc : cellIndex r.cap.toNat (r.rd.toNat + i) with f | a
    · rw [hc] at h; cases h
    rcases hm : r.memRead depth a with f | v
    · simp only [hc, bind, Except.bind, hm] at h; cases h
    rcases hr : r.readFrom depth (i + 1) n with f | l
    · simp only [hc, bind, Except.bind, hm, hr] at h; cases h
    · simp only [hc, bind, Except.bind, hm, hr] at h; cases h; simp [ih _ _ hr]

@[simp] theorem Ring.dropped_store (r : Ring) (n : Nat) : (r.dropped n).store = r.store := rfl

@[simp] theorem Ring.dropped_cap (r : Ring) (n : Nat) : (r.dropped n).cap = r.cap := rfl

@[simp] theorem Ring.dropped_wr (r : Ring) (n : Nat) : (r.dropped n).wr = r.wr := rfl

theorem Ring.dropped_occ_toNat (r : Ring) (n : Nat) : (r.dropped n).occ.toNat = r.occ.toNat - n := by
  have := r.occ.isLt
  simp [Ring.dropped]
  omega

theorem Ring.dropped_rd_toNat (r : Ring) (h0 : r.cap ≠ 0) (n : Nat) : (r.dropped n).rd.toNat = r.readCell n := by
  have := Ring.Bounded.readCell_lt h0 n
  have := r.cap.isLt
  simp only [Ring.dropped, BitVec.toNat_ofNat]
  exact Nat.mod_eq_of_lt (by omega)

theorem Ring.dropped_readCell (r : Ring) (h0 : r.cap ≠ 0) (n i : Nat) :
    (r.dropped n).readCell i = r.readCell (n + i) := by
  show ((r.dropped n).rd.toNat + i) % r.cap.toNat = _
  rw [r.dropped_rd_toNat h0]
  simp only [Ring.readCell]
  rw [Nat.mod_add_mod, Nat.add_assoc]

namespace Ring.Inv

variable {depth : Nat} {r : Ring}

/-- RingDrop keeps the ring invariant. -/
theorem dropped_inv (h : r.Inv depth) {n : Nat} (hn : n ≤ r.occ.toNat) : (r.dropped n).Inv depth := by
  rcases Nat.eq_zero_or_pos n with rfl | hp
  · rwa [h.dropped_zero]
  have h0 := h.cap_ne_zero_of_pos hp hn
  have hocc := r.dropped_occ_toNat n
  have hrd := r.dropped_rd_toNat h0 n
  refine ⟨⟨?_, h.cap_le_depth, fun hc => absurd hc h0, fun _ => ?_, h.wr_lt_cap, fun _ => ?_⟩, h.store_wf,
    h.store_in_depth, fun i hi => ?_⟩
  · have := h.occ_le_cap; rw [hocc, Ring.dropped_cap]; omega
  · rw [hrd]; exact Ring.Bounded.readCell_lt h0 n
  · rw [hrd, hocc, Ring.dropped_cap, Ring.dropped_wr, h.wr_eq h0, Ring.readCell, Nat.mod_add_mod]
    congr 1; omega
  · rw [r.dropped_readCell h0, Ring.dropped_store]
    exact h.held_written _ (by omega)

/-- RingDrop leaves the bytes that were behind the removed ones. -/
theorem dropped_held (h : r.Inv depth) {n : Nat} (hn : n ≤ r.occ.toNat) : (r.dropped n).held = r.held.drop n := by
  rcases Nat.eq_zero_or_pos n with rfl | hp
  · rw [h.dropped_zero]; rfl
  have h0 := h.cap_ne_zero_of_pos hp hn
  have hocc := r.dropped_occ_toNat n
  apply List.ext_getElem
  · simp [hocc]
  · intro i h1 h2
    rw [Ring.held_getElem, r.dropped_readCell h0, Ring.dropped_store, List.getElem_drop, Ring.held_getElem]

end Ring.Inv

/-! ### RingPush -/

/-- What the writes of a push do: the byte at index i + j goes to its cell, every other cell and the rest of the ring stay. -/
theorem Ring.writeFrom_spec {depth : Nat} (d : List Byte) :
    ∀ (r : Ring) (i : Nat), r.cap ≠ 0 → r.cap.toNat ≤ depth → d.length ≤ r.cap.toNat →
      ∃ m, Ring.writeFrom depth r i d = .ok { r with store := m } ∧
        (r.store.wf = true → m.wf = true) ∧
        (∀ c ∈ m, c.1 < r.cap.toNat ∨ c ∈ r.store) ∧
        (∀ a, (∀ j, j < d.length → r.writeCell (i + j) ≠ a) → m.read a = r.store.read a) ∧
        (∀ j (h : j < d.length), m.read (r.writeCell (i + j)) = some d[j]) := by
  induction d with
  | nil =>
    intro r i _ _ _
    exact ⟨r.store, rfl, id, fun c hc => .inr hc, fun _ _ => rfl, fun j h => absurd h (by simp)⟩
  | cons v vs ih =>
    intro r i h0 hd hlen
    have hlt := Ring.Bounded.writeCell_lt h0 i
    let r1 : Ring := { r with store := r.store.write (r.writeCell i) v }
    obtain ⟨m, hm, hwf, hmem, hother, hself⟩ := ih r1 (i + 1) h0 hd (by simp at hlen; show vs.length ≤ r.cap.toNat; omega)
    have hcell : ∀ j, r1.writeCell j = r.writeCell j := fun _ => rfl
    have hstep : Ring.writeFrom depth r i (v :: vs) = Ring.writeFrom depth r1 (i + 1) vs := by
      have hw : r.memWrite depth ((r.wr.toNat + i) % r.cap.toNat) v = .ok r1 := by
        unfold Ring.memWrite
        rw [if_pos ⟨hlt, hlt.trans_le hd⟩]
        rfl
      rw [Ring.writeFrom, cellIndex_eq_ok (Ring.Bounded.cap_pos h0).ne']
      simp only [bind, Except.bind, hw]
    refine ⟨m, by rw [hstep, hm], fun h => hwf (Memory.write_wf _ _ _ h), fun c hc => ?_, fun a ha => ?_, fun j hj => ?_⟩
    · rcases hmem c hc with h | h
      · exact .inl h
      · rcases Memory.mem_write _ _ _ _ h with h | h
        · exact .inl (h ▸ hlt)
        · exact .inr h
    · rw [hother a (fun j hj => by
        rw [hcell, Nat.add_right_comm i 1 j]; exact ha (j + 1) (by simpa using hj))]
      exact Memory.read_write_other _ _ _ _ (ha 0 (by simp))
    · rcases j with _ | j
      · rw [hother _ (fun j hj => by
          rw [hcell]
          have h1 : i < i + 1 + j := by omega
          have h2 : i + 1 + j - i < r.cap.toNat := by simp at hlen; omega
          intro h
          have hm : (r.wr.toNat + i) % r.cap.toNat = (r.wr.toNat + (i + 1 + j)) % r.cap.toNat := h.symm
          have hdv := (Nat.modEq_iff_dvd' (by omega)).1 hm
          exact absurd (Nat.le_of_dvd (by omega) hdv) (by omega))]
        simp [r1]
      · have := hself j (by simpa using hj)
        rw [hcell, Nat.add_right_comm i 1 j, Nat.add_assoc] at this
        simpa using this

/-- RingPush appends the bytes D (R62): what it writes, what it leaves, and the ring invariant. -/
theorem Ring.Inv.push_spec {depth : Nat} {r : Ring} (h : r.Inv depth) {d : List Byte} (hd : d.length ≤ r.free) :
    ∃ q, r.push depth d = .ok q ∧ q.Inv depth ∧ q.cap = r.cap ∧ q.rd = r.rd ∧
      q.wr.toNat = r.writeCell d.length ∧ q.occ.toNat = r.occ.toNat + d.length ∧ q.held = r.held ++ d ∧
      (∀ i (hi : i < d.length), q.store.read (r.writeCell i) = some d[i]) ∧
      (∀ a, (∀ i, i < d.length → r.writeCell i ≠ a) → q.store.read a = r.store.read a) := by
  by_cases hnil : d = []
  · subst hnil
    refine ⟨r, by simp [Ring.push], h, rfl, rfl, ?_, by simp, by simp, fun i hi => absurd hi (by simp), fun _ _ => rfl⟩
    exact h.writeCell_zero.symm
  have hpos : 0 < d.length := List.length_pos_iff.2 hnil
  have hocc := h.occ_le_cap
  have hlt := r.cap.isLt
  have hfit : r.occ.toNat + d.length ≤ r.cap.toNat := by unfold Ring.free at hd; omega
  have h0 : r.cap ≠ 0 := by 
    intro h0
    have : r.cap.toNat = 0 := by rw [h0]; rfl
    omega
  obtain ⟨m, hm, hwf, hmem, hother, hself⟩ := Ring.writeFrom_spec d r 0 h0 h.cap_le_depth (by omega)
  simp only [Nat.zero_add] at hother hself
  have hw := Ring.Bounded.writeCell_lt h0 d.length
  let q : Ring :=
    { r with
      store := m
      wr := BitVec.ofNat 16 (r.writeCell d.length)
      occ := BitVec.ofNat 16 (r.occ.toNat + d.length) }
  have hq : r.push depth d = .ok q := by
    unfold Ring.push
    rw [if_neg hnil, hm, cellIndex_eq_ok (Ring.Bounded.cap_pos h0).ne']
    rfl
  have hqw : q.wr.toNat = r.writeCell d.length := by
    show (BitVec.ofNat 16 _).toNat = _
    simp only [BitVec.toNat_ofNat]; exact Nat.mod_eq_of_lt (by omega)
  have hqo : q.occ.toNat = r.occ.toNat + d.length := by
    show (BitVec.ofNat 16 _).toNat = _
    simp only [BitVec.toNat_ofNat]; exact Nat.mod_eq_of_lt (by omega)
  have hcell : ∀ i, q.readCell i = r.readCell i := fun _ => rfl
  have hold : ∀ i, i < r.occ.toNat → m.read (r.readCell i) = r.store.read (r.readCell i) := fun i hi =>
    hother _ (fun j hj => by
      rw [h.writeCell_eq_readCell h0]
      exact (Ring.Bounded.readCell_ne (by omega) (by omega)).symm)
  have hnew : ∀ j (hj : j < d.length), m.read (r.readCell (r.occ.toNat + j)) = some d[j] := fun j hj => by
    rw [← h.writeCell_eq_readCell h0]; exact hself j hj
  have hinv : q.Inv depth := by
    refine ⟨⟨by rw [hqo]; exact hfit, h.cap_le_depth, fun hc => absurd hc h0, h.rd_lt_cap, fun _ => ?_, fun _ => ?_⟩,
      hwf h.store_wf, fun c hc => ?_, fun i hi => ?_⟩
    · rw [hqw]; exact hw
    · rw [hqw, hqo, h.writeCell_eq_readCell h0, Ring.readCell]
    · rcases hmem c hc with h1 | h1
      · exact h1.trans_le h.cap_le_depth
      · exact h.store_in_depth c h1
    · rw [hqo] at hi
      rw [hcell]
      by_cases hio : i < r.occ.toNat
      · show (m.read _).isSome = true
        rw [hold i hio]; exact h.held_written i hio
      · obtain ⟨j, rfl⟩ := Nat.exists_eq_add_of_le (Nat.le_of_not_lt hio)
        show (m.read _).isSome = true
        rw [hnew j (by omega)]; rfl
  refine ⟨q, hq, hinv, rfl, rfl, hqw, hqo, ?_, hself, hother⟩
  apply List.ext_getElem
  · simp [hqo]
  · intro i h1 h2
    rw [Ring.held_getElem, hcell]
    show (m.read _).getD 0 = _
    by_cases hio : i < r.occ.toNat
    · rw [List.getElem_append_left (by simpa using hio), hold i hio, Ring.held_getElem]
    · obtain ⟨j, rfl⟩ := Nat.exists_eq_add_of_le (Nat.le_of_not_lt hio)
      rw [hnew j (by simp [hqo] at h1; omega), List.getElem_append_right (by simp)]
      simp

end Sys2Proof.Machine
end

