-- ==== Sys2Proof/Laws/Ops.lean ====
section
/-! SUPPORT. One lemma per shared operation of Machine/Ops.lean above the ring primitives: what a pop, a delivery, a turn and
a register write can do, and that every named update keeps the invariant of the block. -/

namespace Sys2Proof.Machine

/-! ### The invariant under updates -/

/-- The invariant speaks of the parameters, the two rings and the definition only. -/
theorem State.Inv.congr {s t : State} (h : s.Inv) (hp : t.params = s.params) (hi : t.inRing = s.inRing)
    (ho : t.outRing = s.outRing) (hd : t.pktdef = s.pktdef) : t.Inv := by
  refine ⟨hp ▸ h.params_legal, ?_, ?_, hd ▸ h.pktdef_legal⟩
  · have := h.inRing; simpa [State.depth, hp, hi] using this
  · have := h.outRing; simpa [State.depth, hp, ho] using this

theorem State.Inv.ring {s : State} (h : s.Inv) (b : RingId) : (s.ring b).Inv (s.depth b) := by
  cases b
  · exact h.inRing
  · exact h.outRing

theorem State.Inv.setRing {s : State} (h : s.Inv) {b : RingId} {r : Ring} (hr : r.Inv (s.depth b)) :
    (s.setRing b r).Inv := by
  cases b
  · exact ⟨h.params_legal, hr, h.outRing, h.pktdef_legal⟩
  · exact ⟨h.params_legal, h.inRing, hr, h.pktdef_legal⟩

theorem State.Inv.record {s : State} (h : s.Inv) (o : Output) : (s.record o).Inv := h.congr rfl rfl rfl rfl

theorem State.Inv.answer {s : State} (h : s.Inv) (st : Status) (res : Word) (dout : List Byte) :
    (s.answer st res dout).Inv := h.congr rfl rfl rfl rfl

theorem State.Inv.produced {s : State} (h : s.Inv) (evs : List Event) : (s.produced evs).Inv := h.congr rfl rfl rfl rfl

/-- A ring just initialised to a capacity within its depth meets the ring invariant. -/
theorem Ring.Inv.initialised {depth : Nat} {r : Ring} (h : r.Inv depth) {cap : Half} (hc : cap.toNat ≤ depth) :
    (r.initialised cap).Inv depth where
  occ_le_cap := Nat.zero_le _
  cap_le_depth := hc
  empty_of_cap_zero _ := ⟨rfl, rfl, rfl⟩
  rd_lt_cap h0 := Ring.Bounded.cap_pos (r := r.initialised cap) h0
  wr_lt_cap h0 := Ring.Bounded.cap_pos (r := r.initialised cap) h0
  wr_eq _ := (Nat.zero_mod _).symm
  store_wf := h.store_wf
  store_in_depth := h.store_in_depth
  held_written i hi := absurd hi (Nat.not_lt_zero i)

@[simp] theorem Ring.initialised_held (r : Ring) (cap : Half) : (r.initialised cap).held = [] := rfl

/-! ### Pop and delivery -/

/-- A pop answers the n oldest bytes and the state without them (R64). -/
theorem State.pop_eq {s : State} (h : s.Inv) (b : RingId) {n : Nat} (hn : n ≤ (s.ring b).occ.toNat) :
    s.pop b n = .ok ((s.held b).take n, s.setRing b ((s.ring b).dropped n)) := by
  unfold State.pop
  rw [(h.ring b).peek_eq hn, (h.ring b).drop_eq hn]
  rfl

/-- `deliver` answers OK, n and the n oldest bytes, which it removes. -/
theorem deliver_eq {s : State} (h : s.Inv) (b : RingId) {n : Nat} (hn : n ≤ (s.ring b).occ.toNat) :
    deliver s b n =
      .next ((s.setRing b ((s.ring b).dropped n)).answer .ok (BitVec.ofNat 32 n) ((s.held b).take n)) := by
  unfold deliver
  rw [State.pop_eq h b hn]
  rfl

/-- RingDrop, whenever it answers: only RD and OCC can differ. -/
theorem Ring.drop_cases {r q : Ring} {n : Nat} (h : r.drop n = .ok q) :
    q.store = r.store ∧ q.cap = r.cap ∧ q.wr = r.wr ∧ (n = 0 → q = r) := by
  unfold Ring.drop at h
  split at h
  · cases h; exact ⟨rfl, rfl, rfl, fun _ => rfl⟩
  · next hn =>
    cases hc : cellIndex r.cap.toNat (r.rd.toNat + n) with
    | error f => rw [hc] at h; cases h
    | ok a => rw [hc] at h; cases h; exact ⟨rfl, rfl, rfl, fun h0 => absurd h0 hn⟩

/-- A pop, whenever it answers: a drop of ring b. -/
theorem State.pop_cases {s s' : State} {b : RingId} {n : Nat} {p : List Byte} (h : s.pop b n = .ok (p, s')) :
    ∃ q, (s.ring b).peek (s.depth b) n = .ok p ∧ (s.ring b).drop n = .ok q ∧ s' = s.setRing b q := by
  unfold State.pop at h
  cases hp : (s.ring b).peek (s.depth b) n with
  | error f => rw [hp] at h; cases h
  | ok p' =>
    cases hd : (s.ring b).drop n with
    | error f => rw [hp, hd] at h; cases h
    | ok q => rw [hp, hd] at h; cases h; exact ⟨q, rfl, rfl, rfl⟩

/-- A delivery, whenever it answers: OK, the count and the bytes popped. -/
theorem deliver_cases {s t : State} {b : RingId} {n : Nat} (h : deliver s b n = .next t) :
    ∃ p q, (s.ring b).peek (s.depth b) n = .ok p ∧ (s.ring b).drop n = .ok q ∧
      t = (s.setRing b q).answer .ok (BitVec.ofNat 32 n) p := by
  unfold deliver at h
  cases hp : s.pop b n with
  | error f => rw [hp] at h; cases h
  | ok x =>
    obtain ⟨p, s'⟩ := x
    rw [hp] at h
    obtain ⟨q, h1, h2, rfl⟩ := State.pop_cases hp
    cases h
    exact ⟨p, q, h1, h2, rfl⟩

/-- RingPush, whenever it answers, in any state: no cell but those of the push, and WR and OCC alone. -/
theorem Ring.writeFrom_cases {depth : Nat} (d : List Byte) :
    ∀ (r q : Ring) (i : Nat), Ring.writeFrom depth r i d = .ok q →
      q.cap = r.cap ∧ q.rd = r.rd ∧ q.wr = r.wr ∧ q.occ = r.occ ∧
      ∀ a, (∀ j, j < d.length → r.writeCell (i + j) ≠ a) → q.store.read a = r.store.read a := by
  induction d with
  | nil => intro r q i h; cases h; exact ⟨rfl, rfl, rfl, rfl, fun _ _ => rfl⟩
  | cons v vs ih =>
    intro r q i h
    rw [Ring.writeFrom] at h
    cases hc : cellIndex r.cap.toNat (r.wr.toNat + i) with
    | error f => rw [hc] at h; cases h
    | ok c =>
      have hcell : c = r.writeCell i := by
        unfold cellIndex at hc; split at hc
        · cases hc
        · cases hc; rfl
      rw [hc] at h
      cases hw : r.memWrite depth c v with
      | error f => simp only [bind, Except.bind, hw] at h; cases h
      | ok r1 =>
        simp only [bind, Except.bind, hw] at h
        unfold Ring.memWrite at hw
        split at hw
        · cases hw
          obtain ⟨h1, h2, h3, h4, h5⟩ := ih _ _ _ h
          refine ⟨h1, h2, h3, h4, fun a ha => ?_⟩
          rw [h5 a (fun j hj => by
            have := ha (j + 1) (by simpa using hj)
            rwa [← Nat.add_assoc, Nat.add_right_comm i j 1] at this)]
          exact Memory.read_write_other _ _ _ _ (hcell ▸ ha 0 (by simp))
        · cases hw

theorem Ring.push_cases {depth : Nat} {r q : Ring} {d : List Byte} (h : r.push depth d = .ok q) :
    q.cap = r.cap ∧ q.rd = r.rd ∧ (∀ a, (∀ i, i < d.length → r.writeCell i ≠ a) → q.store.read a = r.store.read a) := by
  unfold Ring.push at h
  split at h
  · cases h; exact ⟨rfl, rfl, fun _ _ => rfl⟩
  · cases hw : Ring.writeFrom depth r 0 d with
    | error f => rw [hw] at h; cases h
    | ok r1 =>
      obtain ⟨h1, h2, -, -, h5⟩ := Ring.writeFrom_cases d r r1 0 hw
      cases hc : cellIndex r.cap.toNat (r.wr.toNat + d.length) with
      | error f => simp only [hw, bind, Except.bind, hc] at h; cases h
      | ok w =>
        simp only [hw, bind, Except.bind, hc] at h
        cases h
        exact ⟨h1, h2, fun a ha => h5 a (fun j hj => by rw [Nat.zero_add]; exact ha j hj)⟩

/-! ### Registers -/

/-- A register write, whenever it answers: one of the seven writable registers took its value. -/
theorem writeCsr_cases {s t : State} {c : Csr} {v : Word} (h : writeCsr s c v = .ok t) :
    (∃ m, c = .mode ∧ v.extractLsb' 2 30 = 0 ∧ SerialMode.ofBits (v.extractLsb' 0 2) = some m ∧ t = s.setMode m) ∨
    (c = .aten ∧ v.extractLsb' 1 31 = 0 ∧ t = s.setAten (v.getLsbD 0)) ∨
    (∃ d, c = .pktdef ∧ PacketDef.ofWord v = some d ∧ t = s.setPktdef d) ∨
    (c = .pktpay ∧ v.extractLsb' 16 16 = 0 ∧ t = s.setPktpay (v.extractLsb' 0 16)) ∨
    (c = .term ∧ v.extractLsb' 8 24 = 0 ∧ t = s.setTerm (v.extractLsb' 0 8)) ∨
    (c = .even ∧ v.extractLsb' 4 28 = 0 ∧ t = s.setEven (v.extractLsb' 0 4)) ∨
    (c = .status ∧ v.extractLsb' 2 30 = 0 ∧
      t = (s.setOvf (s.ovf && !v.getLsbD 0)).setPerr (s.perr && !v.getLsbD 1)) := by
  cases c <;> simp only [writeCsr, statusW1C] at h
  case mode =>
    split at h
    · split at h
      · cases h; exact .inl ⟨_, rfl, ‹_›, ‹_›, rfl⟩
      · cases h
    · cases h
  case aten => split at h <;> cases h; exact .inr (.inl ⟨rfl, ‹_›, rfl⟩)
  case pktdef => split at h <;> cases h; exact .inr (.inr (.inl ⟨_, rfl, ‹_›, rfl⟩))
  case pktpay => split at h <;> cases h; exact .inr (.inr (.inr (.inl ⟨rfl, ‹_›, rfl⟩)))
  case term => split at h <;> cases h; exact .inr (.inr (.inr (.inr (.inl ⟨rfl, ‹_›, rfl⟩))))
  case even => split at h <;> cases h; exact .inr (.inr (.inr (.inr (.inr (.inl ⟨rfl, ‹_›, rfl⟩)))))
  case status => split at h <;> cases h; exact .inr (.inr (.inr (.inr (.inr (.inr ⟨rfl, ‹_›, rfl⟩)))))
  all_goals cases h

/-- A register write that is rejected is rejected as ILLEGAL or PARAM. -/
theorem writeCsr_error {s : State} {c : Csr} {v : Word} {st : Status} (h : writeCsr s c v = .error st) :
    st = .illegal ∨ st = .param := by
  cases c <;> simp only [writeCsr, statusW1C] at h
  case mode =>
    split at h
    · split at h
      · cases h
      · cases h; exact .inr rfl
    · cases h; exact .inr rfl
  case aten => split at h <;> cases h; exact .inr rfl
  case pktdef => split at h <;> cases h; exact .inr rfl
  case pktpay => split at h <;> cases h; exact .inr rfl
  case term => split at h <;> cases h; exact .inr rfl
  case even => split at h <;> cases h; exact .inr rfl
  case status => split at h <;> cases h; exact .inr rfl
  all_goals (cases h; exact .inl rfl)

/-! ### Turns -/

/-- What a turn is: a transaction taken off the front of its port's queue, or nothing but the turn itself. -/
theorem State.turn_cases (s : State) :
    (∃ turns c cs, s.schedule = .consumer :: turns ∧ s.commands = c :: cs ∧
      s.turn = (some (.consumer c), { s with schedule := turns, commands := cs })) ∨
    (∃ turns p ps, s.schedule = .producer :: turns ∧ s.spans = p :: ps ∧
      s.turn = (some (.producer p), { s with schedule := turns, spans := ps })) ∨
    (∃ turns, s.turn = (none, { s with schedule := turns })) := by
  obtain ⟨params, inRing, outRing, mode, aten, pktdef, pktpay, term, even, ovf, perr, schedule, commands, spans, trace⟩ := s
  rcases schedule with _ | ⟨a, turns⟩
  · exact .inr (.inr ⟨[], rfl⟩)
  · cases a
    · rcases spans with _ | ⟨p, ps⟩
      · exact .inr (.inr ⟨turns, rfl⟩)
      · exact .inr (.inl ⟨turns, p, ps, rfl, rfl, rfl⟩)
    · rcases commands with _ | ⟨c, cs⟩
      · exact .inr (.inr ⟨turns, rfl⟩)
      · exact .inl ⟨turns, c, cs, rfl, rfl, rfl⟩
    · exact .inr (.inr ⟨turns, rfl⟩)

/-- A turn changes only the schedule and the queues: the block and the trace are as they were. -/
theorem State.turn_block (s : State) :
    s.turn.2.params = s.params ∧ s.turn.2.inRing = s.inRing ∧ s.turn.2.outRing = s.outRing ∧ s.turn.2.mode = s.mode ∧
    s.turn.2.aten = s.aten ∧ s.turn.2.pktdef = s.pktdef ∧ s.turn.2.pktpay = s.pktpay ∧ s.turn.2.term = s.term ∧
    s.turn.2.even = s.even ∧ s.turn.2.ovf = s.ovf ∧ s.turn.2.perr = s.perr ∧ s.turn.2.trace = s.trace := by
  rcases s.turn_cases with ⟨turns, c, cs, -, -, h⟩ | ⟨turns, p, ps, -, -, h⟩ | ⟨turns, h⟩ <;> rw [h] <;>
    exact ⟨rfl, rfl, rfl, rfl, rfl, rfl, rfl, rfl, rfl, rfl, rfl, rfl⟩

/-- A transaction issued next is what the next turn takes, and nothing else is touched. -/
@[simp] theorem State.turn_issueNext (s : State) (t : Txn) : (s.issueNext t).turn = (some t, s) := by
  cases t <;> rfl

theorem step_of_turn_none {s s' : State} (h : s.turn = (none, s')) : step s = .next s' := by
  simp only [step, h]

theorem step_of_turn_ok {s s' : State} {t : Txn} {i : Instr} (h : s.turn = (some t, s')) (hd : decode t = .ok i) :
    step s = exec i s' := by
  simp only [step, h, hd]

theorem step_of_turn_error {s s' : State} {t : Txn} {r : Reject} (h : s.turn = (some t, s')) (hd : decode t = .error r) :
    step s = rejectTxn r s' := by
  simp only [step, h, hd]

/-- A step that answers a next state: an idle turn, an instruction's meaning, an ILLEGAL answer, or PERR set. -/
theorem step_cases {s t : State} (h : step s = .next t) :
    s.turn = (none, t) ∨
    (∃ x s' i, s.turn = (some x, s') ∧ decode x = .ok i ∧ exec i s' = .next t) ∨
    (∃ c s', s.turn = (some (.consumer c), s') ∧ t = s'.answer .illegal 0 []) ∨
    (∃ p s', s.turn = (some (.producer p), s') ∧ prefixField p.ph ≠ 0x4000 ∧ t = (s'.setPerr true).produced []) := by
  rcases hturn : s.turn with ⟨x, s'⟩
  rcases x with _ | x
  · rw [step_of_turn_none hturn] at h
    cases h; exact .inl rfl
  · rcases hdec : decode x with r | i
    · rw [step_of_turn_error hturn hdec] at h
      rcases x with c | p
      · rw [decode_consumer] at hdec
        split at hdec
        · rcases decodeCommand_error hdec with rfl | rfl <;> (cases h; exact .inr (.inr (.inl ⟨c, s', rfl, rfl⟩)))
        · cases hdec; cases h
      · rcases decode_producer_cases p with ⟨-, h2⟩ | ⟨-, h1, h2⟩ | ⟨-, -, h2⟩ <;> rw [h2] at hdec <;> cases hdec
        · cases h
        · cases h; exact .inr (.inr (.inr ⟨p, s', rfl, h1, rfl⟩))
    · rw [step_of_turn_ok hturn hdec] at h
      exact .inr (.inl ⟨x, s', i, rfl, hdec, h⟩)

end Sys2Proof.Machine
end

