-- ==== Sys2Proof/Laws/Exec.lean ====
section
/-! SUPPORT. What each instruction can do: one inversion lemma per meaning ("if it answers a next state, then one of these"),
which later proofs cite instead of unfolding the meaning; and the two searches the framing engine makes. -/

namespace Sys2Proof.Machine

/-! ### The terminator search and the length field -/

theorem firstIndex_eq_none {t : Byte} {l : List Byte} : firstIndex t l = none ↔ t ∉ l := by
  induction l with
  | nil => simp [firstIndex]
  | cons v vs ih =>
    simp only [firstIndex]
    split
    · next h => simp [h]
    · next h => simp [ih, Ne.symm h]

/-- The least index of a byte: it stands there, and nowhere before. -/
theorem firstIndex_eq_some {t : Byte} {l : List Byte} {k : Nat} :
    firstIndex t l = some k ↔ l[k]? = some t ∧ ∀ j, j < k → l[j]? ≠ some t := by
  induction l generalizing k with
  | nil => simp [firstIndex]
  | cons v vs ih =>
    simp only [firstIndex]
    split
    · next h =>
      cases k with
      | zero => simp [h]
      | succ k => simp; intro _; exact ⟨0, by omega, by simp [h]⟩
    · next h =>
      cases k with
      | zero => simp [h]
      | succ k =>
        simp only [Option.map_eq_some_iff, List.getElem?_cons_succ]
        constructor
        · rintro ⟨a, ha, hk⟩
          obtain rfl : a = k := by omega
          obtain ⟨h1, h2⟩ := ih.1 ha
          refine ⟨h1, fun j hj => ?_⟩
          cases j with
          | zero => simpa using h
          | succ j => simpa using h2 j (by omega)
        · rintro ⟨h1, h2⟩
          exact ⟨k, ih.2 ⟨h1, fun j hj => by simpa using h2 (j + 1) (by omega)⟩, rfl⟩

/-- A payload length is at most 65535, so a packet's total is at most 65790 (spec/20_memory.md R80). -/
theorem lenField_le {h : List Byte} {o l : Nat} {lw : LenWidth} (hl : lenField h o lw = some l) : l ≤ 65535 := by
  unfold lenField at hl
  split at hl
  · obtain ⟨x, -, hx⟩ := Option.bind_eq_some_iff.1 hl
    cases hx; have := x.isLt; omega
  · obtain ⟨x, -, hx⟩ := Option.bind_eq_some_iff.1 hl
    obtain ⟨y, -, hy⟩ := Option.bind_eq_some_iff.1 hx
    cases hy; have := x.isLt; have := y.isLt; omega
  · obtain ⟨x, -, hx⟩ := Option.bind_eq_some_iff.1 hl
    obtain ⟨y, -, hy⟩ := Option.bind_eq_some_iff.1 hx
    cases hy; have := x.isLt; have := y.isLt; omega

/-! ### Control commands -/

theorem execInit_cases {ic : Half} {opa : Word} {s t : State} (h : execInit ic opa s = .next t) :
    t = s.answer .param 0 [] ∨
    ∃ oc : Half, oc = opa.extractLsb' 0 16 ∧ ic.toNat ≤ s.depth .input ∧ oc.toNat ≤ s.depth .output ∧
      t = (s.initialised ic oc).answer .ok 0 [] := by
  simp only [execInit, finish_eq] at h
  split at h
  · cases h; exact .inl rfl
  · next hn =>
    cases h
    push Not at hn
    exact .inr ⟨_, rfl, hn.2.1, hn.2.2, rfl⟩

theorem execCsrRead_cases {r : Byte} {s t : State} (h : execCsrRead r s = .next t) :
    t = s.answer .illegal 0 [] ∨ ∃ c, csrOf r = some c ∧ t = s.answer .ok (s.csrValue c) [] := by
  simp only [execCsrRead, finish_eq] at h
  split at h
  · cases h; exact .inl rfl
  · cases h; exact .inr ⟨_, ‹_›, rfl⟩

theorem execCsrWrite_cases {r : Byte} {v : Word} {s t : State} (h : execCsrWrite r v s = .next t) :
    t = s.answer .illegal 0 [] ∨ t = s.answer .param 0 [] ∨
    ∃ c s', csrOf r = some c ∧ writeCsr s c v = .ok s' ∧ t = s'.answer .ok 0 [] := by
  simp only [execCsrWrite, finish_eq] at h
  split at h
  · cases h; exact .inl rfl
  · split at h
    · next hw =>
      cases h
      rcases writeCsr_error hw with rfl | rfl
      · exact .inl rfl
      · exact .inr (.inl rfl)
    · cases h; exact .inr (.inr ⟨_, _, ‹_›, ‹_›, rfl⟩)

/-! ### Ring commands -/

theorem execBufPush_cases {d : List Byte} {s t : State} (h : execBufPush d s = .next t) :
    s.outRing.free < d.length ∧ t = s.answer .insuffSpace 0 [] ∨
    ∃ q, d.length ≤ s.outRing.free ∧ s.outRing.push (s.depth .output) d = .ok q ∧
      t = (s.setRing .output q).answer .ok (BitVec.ofNat 32 d.length) [] := by
  simp only [execBufPush, finish_eq] at h
  split at h
  · cases h; exact .inl ⟨‹_›, rfl⟩
  · next hf =>
    split at h
    · next hq => cases h; exact .inr ⟨_, Nat.le_of_not_lt hf, hq, rfl⟩
    · cases h

theorem execBufPop_cases {b : RingId} {n : Half} {s t : State} (h : execBufPop b n s = .next t) :
    t = s.answer .insuffData 0 [] ∨
    ∃ p q, n.toNat ≤ (s.ring b).occ.toNat ∧ (s.ring b).peek (s.depth b) n.toNat = .ok p ∧
      (s.ring b).drop n.toNat = .ok q ∧ t = (s.setRing b q).answer .ok (BitVec.ofNat 32 n.toNat) p := by
  simp only [execBufPop, finish_eq] at h
  split at h
  · cases h; exact .inl rfl
  · next hn =>
    obtain ⟨p, q, h1, h2, h3⟩ := deliver_cases h
    exact .inr ⟨p, q, Nat.le_of_not_lt hn, h1, h2, h3⟩

theorem execBufPeek_cases {b : RingId} {n : Half} {s t : State} (h : execBufPeek b n s = .next t) :
    t = s.answer .insuffData 0 [] ∨
    ∃ p, n.toNat ≤ (s.ring b).occ.toNat ∧ (s.ring b).peek (s.depth b) n.toNat = .ok p ∧
      t = s.answer .ok (zext32 n) p := by
  simp only [execBufPeek, finish_eq] at h
  split at h
  · cases h; exact .inl rfl
  · next hn =>
    split at h
    · next hp => cases h; exact .inr ⟨_, Nat.le_of_not_lt hn, hp, rfl⟩
    · cases h

theorem execBufDiscard_cases {b : RingId} {n : Half} {s t : State} (h : execBufDiscard b n s = .next t) :
    t = s.answer .insuffData 0 [] ∨
    ∃ q, n.toNat ≤ (s.ring b).occ.toNat ∧ (s.ring b).drop n.toNat = .ok q ∧
      t = (s.setRing b q).answer .ok (zext32 n) [] := by
  simp only [execBufDiscard, finish_eq] at h
  split at h
  · cases h; exact .inl rfl
  · next hn =>
    split at h
    · next hq => cases h; exact .inr ⟨_, Nat.le_of_not_lt hn, hq, rfl⟩
    · cases h

/-! ### Framing and read commands -/

theorem execReadRaw_cases {n : Half} {s t : State} (h : execReadRaw n s = .next t) :
    t = s.answer .ok 0 [] ∨
    ∃ p q, 0 < n.toNat ∧ n.toNat ≤ s.inRing.occ.toNat ∧ s.inRing.peek (s.depth .input) n.toNat = .ok p ∧
      s.inRing.drop n.toNat = .ok q ∧ t = (s.setRing .input q).answer .ok (BitVec.ofNat 32 n.toNat) p := by
  simp only [execReadRaw, finish_eq] at h
  split at h
  · cases h; exact .inl rfl
  · next hn =>
    push Not at hn
    obtain ⟨p, q, h1, h2, h3⟩ := deliver_cases h
    exact .inr ⟨p, q, Nat.pos_of_ne_zero hn.1, hn.2, h1, h2, h3⟩

theorem readUnit_cases {total : Nat} {dst : Half} {s t : State} (h : readUnit total dst s = .next t) :
    t = s.answer .oversize (BitVec.ofNat 32 total) [] ∨ t = s.answer .ok 0 [] ∨
    ∃ p q, total ≤ s.inRing.occ.toNat ∧ s.inRing.peek (s.depth .input) total = .ok p ∧
      s.inRing.drop total = .ok q ∧ t = (s.setRing .input q).answer .ok (BitVec.ofNat 32 total) p := by
  simp only [readUnit, finish_eq] at h
  split at h
  · cases h; exact .inl rfl
  split at h
  · cases h; exact .inr (.inl rfl)
  · next hn =>
    obtain ⟨p, q, h1, h2, h3⟩ := deliver_cases h
    exact .inr (.inr ⟨p, q, Nat.le_of_not_lt hn, h1, h2, h3⟩)

theorem execReadPkt_cases {dst : Half} {s t : State} (h : execReadPkt dst s = .next t) :
    t = s.answer .ok 0 [] ∨ ∃ total, total ≤ 65790 ∧ readUnit total dst s = .next t := by
  have h1 := s.pktdef.hdr.isLt
  have h2 := s.pktpay.isLt
  simp only [execReadPkt, readPktVar, readPktFixed, finish_eq] at h
  split at h
  · split at h
    · split at h
      · cases h; exact .inl rfl
      · split at h
        · cases h
        · split at h
          · cases h
          · next l hl => exact .inr ⟨_, by have := lenField_le hl; omega, h⟩
    · exact .inr ⟨_, by omega, h⟩
  · cases h; exact .inl rfl

theorem execReadCmd_cases {dst : Half} {s t : State} (h : execReadCmd dst s = .next t) :
    t = s.answer .ok 0 [] ∨ (∃ res, t = s.answer .oversize res []) ∨
    ∃ bytes k q, s.inRing.peek (s.depth .input) s.inRing.occ.toNat = .ok bytes ∧ firstIndex s.term bytes = some k ∧
      s.inRing.drop (k + 1) = .ok q ∧
      t = (s.setRing .input q).answer .ok (0x00010000 ||| BitVec.ofNat 32 k) (bytes.take k) := by
  simp only [execReadCmd, finish_eq] at h
  split at h
  · cases h
  · next bytes hb =>
    split at h
    · split at h
      · cases h; exact .inr (.inl ⟨_, rfl⟩)
      · cases h; exact .inl rfl
    · next k hk =>
      split at h
      · cases h; exact .inr (.inl ⟨_, rfl⟩)
      · split at h
        · cases h
        · next q hq => cases h; exact .inr (.inr ⟨bytes, k, q, hb, hk, hq, rfl⟩)

/-! ### Ingestion -/

theorem dispatchEvent_enabled {s : State} {d : List Byte} :
    (dispatchEvent s d).length ≤ 1 ∧ ∀ e ∈ dispatchEvent s d, s.even.getLsbD e.id = true := by
  have emit : ∀ e, (s.emit e).length ≤ 1 ∧ ∀ x ∈ s.emit e, s.even.getLsbD x.id = true := by
    intro e
    unfold State.emit
    split
    · next h => simpa using h
    · simp
  unfold dispatchEvent
  split
  · exact emit _
  · exact emit _
  · split
    · exact emit _
    · simp

theorem execRx_cases {d : List Byte} {s t : State} (h : execRx d s = .next t) :
    (s.ovf = true ∨ d = []) ∧ t = s.produced [] ∨
    s.ovf = false ∧ s.inRing.free < d.length ∧ t = (s.setOvf true).produced (s.emit .ovf) ∨
    ∃ q, s.ovf = false ∧ d ≠ [] ∧ d.length ≤ s.inRing.free ∧ s.inRing.push (s.depth .input) d = .ok q ∧
      t = (s.setRing .input q).produced (dispatchEvent s d) := by
  simp only [execRx] at h
  split at h
  · cases h; exact .inl ⟨.inl ‹_›, rfl⟩
  next ho =>
  have ho : s.ovf = false := Bool.eq_false_iff.2 ho
  split at h
  · cases h; exact .inl ⟨.inr ‹_›, rfl⟩
  next hd =>
  split at h
  · cases h; exact .inr (.inl ⟨ho, ‹_›, rfl⟩)
  next hf =>
  split at h
  · next hq => cases h; exact .inr (.inr ⟨_, ho, hd, Nat.le_of_not_lt hf, hq, rfl⟩)
  · cases h

/-! ### All instructions at once -/

/-- What READ_PKT does once the total is known, in a state that meets the invariant (R182, R183). -/
theorem readUnit_eq {s : State} (h : s.Inv) (total : Nat) (dst : Half) :
    readUnit total dst s = .next
      (if dst.toNat < total ∨ s.inRing.cap.toNat < total then s.answer .oversize (BitVec.ofNat 32 total) []
      else if s.inRing.occ.toNat < total then s.answer .ok 0 []
      else (s.setRing .input (s.inRing.dropped total)).answer .ok (BitVec.ofNat 32 total) (s.inRing.held.take total)) := by
  unfold readUnit
  split
  · rfl
  split
  · rfl
  · next h2 => rw [deliver_eq h .input (Nat.le_of_not_lt h2)]; rfl

/-- A register write leaves both rings, the parameters, the pending inputs and the trace. -/
theorem writeCsr_frame {s t : State} {c : Csr} {v : Word} (h : writeCsr s c v = .ok t) :
    (∀ b, t.ring b = s.ring b) ∧ t.params = s.params ∧ t.schedule = s.schedule ∧ t.commands = s.commands ∧
      t.spans = s.spans ∧ t.trace = s.trace := by
  rcases writeCsr_cases h with ⟨m, -, -, -, rfl⟩ | ⟨-, -, rfl⟩ | ⟨d, -, -, rfl⟩ | ⟨-, -, rfl⟩ | ⟨-, -, rfl⟩ | ⟨-, -, rfl⟩ |
    ⟨-, -, rfl⟩ <;> simp

/-- No instruction changes a parameter or a pending input. -/
theorem exec_inputs {i : Instr} {s t : State} (he : exec i s = .next t) :
    t.params = s.params ∧ t.schedule = s.schedule ∧ t.commands = s.commands ∧ t.spans = s.spans := by
  cases i with
  | init => rcases execInit_cases he with rfl | ⟨_, -, -, -, rfl⟩ <;> simp
  | csrRead => rcases execCsrRead_cases he with rfl | ⟨_, -, rfl⟩ <;> simp
  | csrWrite =>
    rcases execCsrWrite_cases he with rfl | rfl | ⟨_, _, -, hw, rfl⟩
    · simp
    · simp
    · obtain ⟨-, h1, h2, h3, h4, -⟩ := writeCsr_frame hw
      simp [h1, h2, h3, h4]
  | bufPush => rcases execBufPush_cases he with ⟨-, rfl⟩ | ⟨_, -, -, rfl⟩ <;> simp
  | bufPop => rcases execBufPop_cases he with rfl | ⟨_, _, -, -, -, rfl⟩ <;> simp
  | bufPeek => rcases execBufPeek_cases he with rfl | ⟨_, -, -, rfl⟩ <;> simp
  | bufDiscard => rcases execBufDiscard_cases he with rfl | ⟨_, -, -, rfl⟩ <;> simp
  | readRaw => rcases execReadRaw_cases he with rfl | ⟨_, _, -, -, -, -, rfl⟩ <;> simp
  | readPkt =>
    rcases execReadPkt_cases he with rfl | ⟨_, -, hu⟩
    · simp
    · rcases readUnit_cases hu with rfl | rfl | ⟨_, _, -, -, -, rfl⟩ <;> simp
  | readCmd => rcases execReadCmd_cases he with rfl | ⟨_, rfl⟩ | ⟨_, _, _, -, -, -, rfl⟩ <;> simp
  | rx => rcases execRx_cases he with ⟨-, rfl⟩ | ⟨-, -, rfl⟩ | ⟨_, -, -, -, -, rfl⟩ <;> simp

/-- What an instruction that is not INIT does to the rings of a state that meets the invariant: nothing; or n bytes taken from
the front of one ring, with an OK answer; or a push. -/
theorem exec_ring {i : Instr} {s t : State} (hs : s.Inv) (he : exec i s = .next t) (hi : ∀ ic opa, i ≠ .init ic opa) :
    (∀ b, t.ring b = s.ring b) ∨
    (∃ b n res p, n ≤ (s.ring b).occ.toNat ∧ t = (s.setRing b ((s.ring b).dropped n)).answer .ok res p ∧
      ((∃ k, (i = .bufPop b k ∨ b = .input ∧ (i = .readRaw k ∨ i = .readPkt k)) ∧ p = (s.held b).take n) ∨
        (∃ k, i = .bufDiscard b k) ∨
        (∃ k m, b = .input ∧ i = .readCmd k ∧ n = m + 1 ∧ p = (s.held .input).take m ∧
          firstIndex s.term (s.held .input) = some m))) ∨
    (∃ b d q, d.length ≤ (s.ring b).free ∧ (s.ring b).push (s.depth b) d = .ok q ∧
      (∀ c, t.ring c = (s.setRing b q).ring c) ∧ (b = .input ∧ i = .rx d ∨ b = .output ∧ i = .bufPush d)) := by
  have took : ∀ {b n p q}, n ≤ (s.ring b).occ.toNat → (s.ring b).peek (s.depth b) n = .ok p → (s.ring b).drop n = .ok q →
      p = (s.held b).take n ∧ q = (s.ring b).dropped n := by
    intro b n p q h1 h2 h3
    rw [(hs.ring b).peek_eq h1] at h2
    rw [(hs.ring b).drop_eq h1] at h3
    cases h2; cases h3; exact ⟨rfl, rfl⟩
  cases i with
  | init => exact absurd rfl (hi _ _)
  | csrRead => rcases execCsrRead_cases he with rfl | ⟨_, -, rfl⟩ <;> simp
  | csrWrite =>
    rcases execCsrWrite_cases he with rfl | rfl | ⟨_, _, -, hw, rfl⟩
    · simp
    · simp
    · exact .inl (by simpa using (writeCsr_frame hw).1)
  | bufPush d =>
    rcases execBufPush_cases he with ⟨-, rfl⟩ | ⟨q, h1, h2, rfl⟩
    · simp
    · exact .inr (.inr ⟨.output, d, q, h1, h2, by simp, .inr ⟨rfl, rfl⟩⟩)
  | bufPop b n =>
    rcases execBufPop_cases he with rfl | ⟨p, q, h1, h2, h3, rfl⟩
    · simp
    · obtain ⟨rfl, rfl⟩ := took h1 h2 h3
      exact .inr (.inl ⟨b, _, _, _, h1, rfl, .inl ⟨n, .inl rfl, rfl⟩⟩)
  | bufPeek => rcases execBufPeek_cases he with rfl | ⟨_, -, -, rfl⟩ <;> simp
  | bufDiscard b n =>
    rcases execBufDiscard_cases he with rfl | ⟨q, h1, h3, rfl⟩
    · simp
    · obtain ⟨-, rfl⟩ := took h1 ((hs.ring b).peek_eq h1) h3
      exact .inr (.inl ⟨b, _, _, _, h1, rfl, .inr (.inl ⟨n, rfl⟩)⟩)
  | readRaw n =>
    rcases execReadRaw_cases he with rfl | ⟨p, q, -, h1, h2, h3, rfl⟩
    · simp
    · obtain ⟨rfl, rfl⟩ := took (b := .input) h1 h2 h3
      exact .inr (.inl ⟨.input, _, _, _, h1, rfl, .inl ⟨n, .inr ⟨rfl, .inl rfl⟩, rfl⟩⟩)
  | readPkt n =>
    rcases execReadPkt_cases he with rfl | ⟨_, -, hu⟩
    · simp
    · rcases readUnit_cases hu with rfl | rfl | ⟨p, q, h1, h2, h3, rfl⟩
      · simp
      · simp
      · obtain ⟨rfl, rfl⟩ := took (b := .input) h1 h2 h3
        exact .inr (.inl ⟨.input, _, _, _, h1, rfl, .inl ⟨n, .inr ⟨rfl, .inr rfl⟩, rfl⟩⟩)
  | readCmd n =>
    rcases execReadCmd_cases he with rfl | ⟨_, rfl⟩ | ⟨bytes, k, q, h1, h2, h3, rfl⟩
    · simp
    · simp
    · obtain rfl : bytes = s.inRing.held := by
        have hp := hs.inRing.peek_eq (Nat.le_refl _)
        rw [h1] at hp
        cases hp
        exact List.take_of_length_le (by simp)
      obtain ⟨hk, -⟩ := List.getElem?_eq_some_iff.1 (firstIndex_eq_some.1 h2).1
      have hk : k + 1 ≤ s.inRing.occ.toNat := by simpa using hk
      rw [Ring.Bounded.drop_eq hs.inRing.toBounded hk] at h3
      cases h3
      exact .inr (.inl ⟨.input, k + 1, _, _, hk, rfl, .inr (.inr ⟨n, k, rfl, rfl, rfl, rfl, h2⟩)⟩)
  | rx d =>
    rcases execRx_cases he with ⟨-, rfl⟩ | ⟨-, -, rfl⟩ | ⟨q, -, -, h1, h2, rfl⟩
    · simp
    · simp
    · exact .inr (.inr ⟨.input, d, q, h1, h2, by simp, .inl ⟨rfl, rfl⟩⟩)

/-- How a consumer instruction ends: with one answer, on a state whose trace is the old one. Every status but OK leaves that
state the old one and comes without data; RES is 0 but for OK and OVERSIZE; and each status comes from its commands (R102,
R103, R242). -/
theorem exec_answer {i : Instr} {s t : State} (he : exec i s = .next t) (hi : ∀ d, i ≠ .rx d) :
    ∃ s' st res dout, t = s'.answer st res dout ∧ s'.trace = s.trace ∧
      (st ≠ .ok → s' = s ∧ dout = []) ∧ (st ≠ .ok → st ≠ .oversize → res = 0) ∧
      (st = .insuffData → ∃ b n, i = .bufPop b n ∨ i = .bufPeek b n ∨ i = .bufDiscard b n) ∧
      (st = .insuffSpace → ∃ d, i = .bufPush d) ∧
      (st = .oversize → ∃ n, i = .readPkt n ∨ i = .readCmd n) ∧
      (st = .param → (∃ ic opa, i = .init ic opa) ∨ ∃ q v, i = .csrWrite q v) ∧
      (st = .illegal → (∃ q, i = .csrRead q) ∨ ∃ q v, i = .csrWrite q v) := by
  cases i with
  | init => rcases execInit_cases he with rfl | ⟨_, -, -, -, rfl⟩ <;> exact ⟨_, _, _, _, rfl, by simp⟩
  | csrRead => rcases execCsrRead_cases he with rfl | ⟨_, -, rfl⟩ <;> exact ⟨_, _, _, _, rfl, by simp⟩
  | csrWrite =>
    rcases execCsrWrite_cases he with rfl | rfl | ⟨_, _, -, hw, rfl⟩
    · exact ⟨_, _, _, _, rfl, by simp⟩
    · exact ⟨_, _, _, _, rfl, by simp⟩
    · exact ⟨_, _, _, _, rfl, by simp [(writeCsr_frame hw).2.2.2.2.2]⟩
  | bufPush => rcases execBufPush_cases he with ⟨-, rfl⟩ | ⟨_, -, -, rfl⟩ <;> exact ⟨_, _, _, _, rfl, by simp⟩
  | bufPop b n =>
    rcases execBufPop_cases he with rfl | ⟨_, _, -, -, -, rfl⟩
    · exact ⟨_, _, _, _, rfl, rfl, by simp, by simp, fun _ => ⟨b, n, .inl rfl⟩, by simp⟩
    · exact ⟨_, _, _, _, rfl, by simp⟩
  | bufPeek b n =>
    rcases execBufPeek_cases he with rfl | ⟨_, -, -, rfl⟩
    · exact ⟨_, _, _, _, rfl, rfl, by simp, by simp, fun _ => ⟨b, n, .inr (.inl rfl)⟩, by simp⟩
    · exact ⟨_, _, _, _, rfl, by simp⟩
  | bufDiscard b n =>
    rcases execBufDiscard_cases he with rfl | ⟨_, -, -, rfl⟩
    · exact ⟨_, _, _, _, rfl, rfl, by simp, by simp, fun _ => ⟨b, n, .inr (.inr rfl)⟩, by simp⟩
    · exact ⟨_, _, _, _, rfl, by simp⟩
  | readRaw => rcases execReadRaw_cases he with rfl | ⟨_, _, -, -, -, -, rfl⟩ <;> exact ⟨_, _, _, _, rfl, by simp⟩
  | readPkt =>
    rcases execReadPkt_cases he with rfl | ⟨_, -, hu⟩
    · exact ⟨_, _, _, _, rfl, by simp⟩
    · rcases readUnit_cases hu with rfl | rfl | ⟨_, _, -, -, -, rfl⟩ <;> exact ⟨_, _, _, _, rfl, by simp⟩
  | readCmd =>
    rcases execReadCmd_cases he with rfl | ⟨_, rfl⟩ | ⟨_, _, _, -, -, -, rfl⟩ <;> exact ⟨_, _, _, _, rfl, by simp⟩
  | rx d => exact absurd rfl (hi d)

end Sys2Proof.Machine
end

