-- ==== Sys2Proof/Laws/PerInstr.lean ====
section
/-! SUPPORT. A statement per instruction: the word it encodes to is selected by its row of the opcode map
(spec/30_encoding.md R97) and stands on the port that row is for (R90). -/

namespace Sys2Proof.Laws.RowMatch

/-- The match and the mask of an instruction's row, as R97 lists them. -/
def rowBits : Instr → Word × Word
  | .init _ _ => (0x01000000, 0xFFFF0000)
  | .csrRead _ => (0x02000000, 0xFF00FFFF)
  | .csrWrite _ _ => (0x03000000, 0xFF00FFFF)
  | .bufPush _ => (0x10010000, 0xFFFF0000)
  | .bufPop _ _ => (0x11000000, 0xFFFE0000)
  | .bufPeek _ _ => (0x12000000, 0xFFFE0000)
  | .bufDiscard _ _ => (0x13000000, 0xFFFE0000)
  | .readRaw _ => (0x20000000, 0xFFFF0000)
  | .readPkt _ => (0x21000000, 0xFFFF0000)
  | .readCmd _ => (0x22000000, 0xFFFF0000)
  | .rx _ => (0x40000000, 0xFFFF0000)

/-- Whether a transaction stands on the producer port. -/
def onProducerPort : Txn → Bool
  | .consumer _ => false
  | .producer _ => true

/-- Whether an instruction is the producer port's. -/
def isRx : Instr → Bool
  | .rx _ => true
  | .init _ _ | .csrRead _ | .csrWrite _ _ | .bufPush _ | .bufPop _ _ | .bufPeek _ _ | .bufDiscard _ _
  | .readRaw _ | .readPkt _ | .readCmd _ => false

/-- The encoded word and the row's mask give the row's match, on the row's port. -/
def Statement (i : Instr) : Prop :=
  (encode i).word &&& (rowBits i).2 = (rowBits i).1 ∧ onProducerPort (encode i) = isRx i

/-- A word and a mask, field by field. -/
theorem cmdWord_and (op r op' r' : Byte) (imm imm' : Half) :
    cmdWord op r imm &&& cmdWord op' r' imm' = cmdWord (op &&& op') (r &&& r') (imm &&& imm') := by
  apply BitVec.eq_of_getLsbD_eq
  intro i hi
  rw [BitVec.getLsbD_and, cmdWord_getLsbD _ _ _ _ hi, cmdWord_getLsbD _ _ _ _ hi, cmdWord_getLsbD _ _ _ _ hi]
  split_ifs <;> simp

theorem byte_and_ff (x : Byte) : x &&& 0xFF = x := BitVec.and_allOnes

theorem half_and_ffff (x : Half) : x &&& 0xFFFF = x := BitVec.and_allOnes

/-- A row that fixes OP and R. -/
theorem mask_op_r (op r : Byte) (imm : Half) : cmdWord op r imm &&& 0xFFFF0000 = cmdWord op r 0 := by
  rw [show (0xFFFF0000 : Word) = cmdWord 0xFF 0xFF 0 by decide, cmdWord_and, byte_and_ff, byte_and_ff]
  simp

/-- A row that fixes OP and IMM. -/
theorem mask_op_imm (op r : Byte) (imm : Half) : cmdWord op r imm &&& 0xFF00FFFF = cmdWord op 0 imm := by
  rw [show (0xFF00FFFF : Word) = cmdWord 0xFF 0 0xFFFF by decide, cmdWord_and,
    byte_and_ff, half_and_ffff]
  simp

/-- A row that fixes OP and R[7:1], SEL being free. -/
theorem mask_op_sel (op : Byte) (b : RingId) (imm : Half) :
    cmdWord op (ringSel b) imm &&& 0xFFFE0000 = cmdWord op 0 0 := by
  rw [show (0xFFFE0000 : Word) = cmdWord 0xFF 0xFE 0 by decide, cmdWord_and, byte_and_ff]
  cases b <;> simp [ringSel]

theorem init (ic : Half) (opa : Word) : Statement (.init ic opa) :=
  ⟨(mask_op_r _ _ _).trans (by rfl), rfl⟩

theorem csrRead (r : Byte) : Statement (.csrRead r) := ⟨(mask_op_imm _ _ _).trans (by rfl), rfl⟩

theorem csrWrite (r : Byte) (v : Word) : Statement (.csrWrite r v) := ⟨(mask_op_imm _ _ _).trans (by rfl), rfl⟩

theorem bufPush (din : List Byte) : Statement (.bufPush din) := ⟨(mask_op_r _ _ _).trans (by rfl), rfl⟩

theorem bufPop (b : RingId) (n : Half) : Statement (.bufPop b n) := ⟨(mask_op_sel _ _ _).trans (by rfl), rfl⟩

theorem bufPeek (b : RingId) (n : Half) : Statement (.bufPeek b n) := ⟨(mask_op_sel _ _ _).trans (by rfl), rfl⟩

theorem bufDiscard (b : RingId) (n : Half) : Statement (.bufDiscard b n) :=
  ⟨(mask_op_sel _ _ _).trans (by rfl), rfl⟩

theorem readRaw (n : Half) : Statement (.readRaw n) := ⟨(mask_op_r _ _ _).trans (by rfl), rfl⟩

theorem readPkt (dst : Half) : Statement (.readPkt dst) := ⟨(mask_op_r _ _ _).trans (by rfl), rfl⟩

theorem readCmd (dst : Half) : Statement (.readCmd dst) := ⟨(mask_op_r _ _ _).trans (by rfl), rfl⟩

theorem rx (data : List Byte) : Statement (.rx data) := ⟨(mask_op_r _ _ _).trans (by rfl), rfl⟩

end Sys2Proof.Laws.RowMatch
end

