-- ==== Sys2Proof/Tests/Slice0.lean ====
section
/-! SUPPORT. Tests of single transactions, with expected results from spec/95_test_vectors.md (the vector is named at each
test), and for every obligation that has hypotheses a witness: concrete states and operands that meet them. -/

namespace Sys2Proof.Tests

open Sys2Proof Sys2Proof.Machine

/-! ### Small states -/

/-- A store whose cells 0, 1, ... hold the given bytes. -/
def cells : Nat → List Byte → Memory
  | _, [] => []
  | k, v :: vs => (k, v) :: cells (k + 1) vs

/-- A ring with the given registers, its cells written from 0 on. -/
def ring (cap rd wr occ : Half) (d : List Byte) : Ring := { store := cells 0 d, cap := cap, occ := occ, rd := rd, wr := wr }

/-- S0 of spec/95: power-on reset with both depths 64. -/
def s0 : State := State.powerOn { inDepth := 64, outDepth := 64 }

/-- S0 with two rings. -/
def withRings (i o : Ring) : State := { s0 with inRing := i, outRing := o }

/-- S1 of spec/95: INIT 8, 4. -/
def s1 : State := withRings (ring 8 0 0 0 []) (ring 4 0 0 0 [])

/-- S2 of spec/95 (INIT 16, 0) after an RX-load of `d`, at most 15 bytes. -/
def s2 (d : List Byte) : State :=
  withRings (ring 16 0 (BitVec.ofNat 16 d.length) (BitVec.ofNat 16 d.length) d) (ring 0 0 0 0 [])

/-- The state W of spec/95 V8: OUT holds B1 in cell 3 and B2 in cell 0. -/
def sW : State := withRings (ring 8 0 0 0 []) (ring 4 3 1 2 [0xB2, 0xA2, 0xA3, 0xB1])

/-- The state before step 3 of spec/95 W1: OUT{4,2,3,1}, cell 2 = 03. -/
def sW1 : State := withRings (ring 8 0 0 0 []) (ring 4 2 3 1 [0x01, 0x02, 0x03])

/-- IN full: spec/95 V72, sixteen bytes, none the terminator. -/
def sFull : State :=
  withRings (ring 16 0 0 16 [0x30, 0x31, 0x32, 0x33, 0x34, 0x35, 0x36, 0x37, 0x38, 0x39, 0x3A, 0x3B, 0x3C, 0x3D, 0x3E, 0x3F])
    (ring 0 0 0 0 [])

/-- S1 with IN holding 01 to 06 and the given enables (spec/95 V31). -/
def sSix (even : BitVec 4) : State := { withRings (ring 8 0 6 6 [1, 2, 3, 4, 5, 6]) (ring 4 0 0 0 []) with even := even }

/-- The step that executes one consumer transaction. -/
def onC (s : State) (cmd opa : Word) (din : List Byte) : Result := step (s.issueNext (.consumer ⟨cmd, opa, din⟩))

/-- The step that executes one producer transaction. -/
def onP (s : State) (ph : Word) (d : List Byte) : Result := step (s.issueNext (.producer ⟨ph, d⟩))

/-- What a step that answers a next state is seen as. -/
def see {α : Type} (f : State → α) : Result → Option α
  | .next t => some (f t)
  | .fault _ => none
  | .refused _ => none

/-- The last answer on the consumer port. -/
def answerOf (t : State) : Option Response := t.trace.getLast?.bind Output.response

/-- The events of the last transaction. -/
def eventsOf (t : State) : List Event := (t.trace.getLast?.map Output.events).getD []

/-- CAP, RD, WR, OCC, as spec/95 writes a ring. -/
def regs (r : Ring) : Half × Half × Half × Half := (r.cap, r.rd, r.wr, r.occ)

/-! ### Well-formed and ill-formed terms -/

theorem test_wf_accepts :
    (Instr.bufPush [1, 2]).wellFormed = true ∧ (Instr.rx []).wellFormed = true ∧ (Instr.readCmd 0xFFFF).wellFormed = true := by
  decide

theorem test_wf_refuses_long_push : (Instr.bufPush (List.replicate 65536 0)).wellFormed = false := by
  rw [Instr.wellFormed, List.length_replicate]; decide

theorem test_wf_refuses_long_rx : (Instr.rx (List.replicate 65536 0)).wellFormed = false := by
  rw [Instr.wellFormed, List.length_replicate]; decide

/-! ### Words written from spec/30_encoding.md R97: (OP << 24) | (R << 16) | IMM -/

/-- OP 00000001, R 0, IMM 65; OPA 4. -/
theorem test_decode_init :
    decode (.consumer ⟨0b00000001_00000000_0000000001000001, 4, []⟩) = .ok (.init 65 4) := by decide

/-- OP 00000010, R 0x11. -/
theorem test_decode_csrRead : decode (.consumer ⟨0b00000010_00010001_0000000000000000, 0, []⟩) = .ok (.csrRead 0x11) := by
  decide

/-- OP 00000011, R 0x02, the value in OPA. -/
theorem test_decode_csrWrite :
    decode (.consumer ⟨0b00000011_00000010_0000000000000000, 0x80010102, []⟩) = .ok (.csrWrite 0x02 0x80010102) := by decide

/-- OP 00010000, SEL 1, IMM 2. -/
theorem test_decode_bufPush :
    decode (.consumer ⟨0b00010000_00000001_0000000000000010, 0, [0xAA, 0xBB]⟩) = .ok (.bufPush [0xAA, 0xBB]) := by decide

/-- OP 00010001, SEL 0 and SEL 1. -/
theorem test_decode_bufPop :
    decode (.consumer ⟨0b00010001_00000000_1000000000000001, 0, []⟩) = .ok (.bufPop .input 0x8001) ∧
    decode (.consumer ⟨0b00010001_00000001_0000000000000010, 0, []⟩) = .ok (.bufPop .output 2) := by decide

/-- OP 00010010, SEL 0; OPA is not decoded (V19). -/
theorem test_decode_bufPeek :
    decode (.consumer ⟨0b00010010_00000000_0000000000000001, 0xFFFFFFFF, []⟩) = .ok (.bufPeek .input 1) := by decide

/-- OP 00010011, SEL 1. -/
theorem test_decode_bufDiscard :
    decode (.consumer ⟨0b00010011_00000001_0000000000000100, 0, []⟩) = .ok (.bufDiscard .output 4) := by decide

/-- OP 00100000. -/
theorem test_decode_readRaw : decode (.consumer ⟨0b00100000_00000000_1111111111111111, 0, []⟩) = .ok (.readRaw 0xFFFF) := by
  decide

/-- OP 00100001. -/
theorem test_decode_readPkt : decode (.consumer ⟨0b00100001_00000000_0000000001000000, 0, []⟩) = .ok (.readPkt 64) := by
  decide

/-- OP 00100010. -/
theorem test_decode_readCmd : decode (.consumer ⟨0b00100010_00000000_0000000000100000, 0, []⟩) = .ok (.readCmd 32) := by
  decide

/-- PH[31:16] 0x4000, COUNT 2. -/
theorem test_decode_rx :
    decode (.producer ⟨0b01000000_00000000_0000000000000010, [0x41, 0x54]⟩) = .ok (.rx [0x41, 0x54]) := by decide

/-- V110 to V112, V14, V15, V86, V89, V120: words that select no row, and why. -/
theorem test_decode_rejects :
    decode (.consumer ⟨0x00000000, 0, []⟩) = .error .illegalOpcode ∧
    decode (.consumer ⟨0x40000001, 0, []⟩) = .error .illegalOpcode ∧
    decode (.consumer ⟨0x14000000, 0, []⟩) = .error .illegalOpcode ∧
    decode (.consumer ⟨0x10000001, 0, [0]⟩) = .error .reservedField ∧
    decode (.consumer ⟨0x11020001, 0, []⟩) = .error .reservedField ∧
    decode (.consumer ⟨0x01010008, 0, []⟩) = .error .reservedField ∧
    decode (.consumer ⟨0x02000001, 0, []⟩) = .error .reservedField ∧
    decode (.producer ⟨0x41000000, []⟩) = .error .malformedHeader ∧
    decode (.producer ⟨0x40000002, [0]⟩) = .error .notATransaction := by decide

/-! ### One step per vector (ST as the 4-bit code of R102: 0 OK, 1 INSUFF_DATA, 2 INSUFF_SPACE, 3 OVERSIZE, 4 PARAM, 5 ILLEGAL) -/

/-- V108: INIT from a state with every register set. -/
theorem test_init_V108 :
    let s : State := { withRings (ring 16 2 7 5 []) (ring 4 1 2 1 []) with
      mode := .binary, aten := true, pktdef := { hdr := 2, ofs := 1, var := true, lw := .one, cfg := true }, pktpay := 3,
      term := 0x0A, even := 5, ovf := true, perr := true }
    see (fun t => (answerOf t, t.mode, t.aten, t.pktdef.word)) (onC s 0x01000010 0 []) =
      some (some ⟨0, 0, []⟩, .transparent, true, 0x00010102) ∧
    see (fun t => (t.pktpay, t.term, t.even, t.statusWord, regs t.inRing, regs t.outRing)) (onC s 0x01000010 0 []) =
      some (3, 0x0A, 5, 0, (16, 0, 0, 0), (0, 0, 0, 0)) := by decide

/-- V85, V81: OPA[31:16] not 0, and a capacity above the depth, are PARAM. -/
theorem test_init_param :
    see answerOf (onC s0 0x01000008 0x00010004 []) = some (some ⟨4, 0, []⟩) ∧
    see (fun t => (answerOf t, regs t.inRing)) (onC s0 0x01000041 0 []) = some (some ⟨4, 0, []⟩, (0, 0, 0, 0)) := by
  decide

/-- P3 steps 11 and 12, and V104's read: INRD, INWR and STATUS. -/
theorem test_csrRead_values :
    see answerOf (onC (withRings (ring 4 3 0 1 [1, 2, 3, 7]) Ring.empty) 0x020A0000 0 []) = some (some ⟨0, 3, []⟩) ∧
    see answerOf (onC (withRings (ring 4 3 0 1 [1, 2, 3, 7]) Ring.empty) 0x020B0000 0 []) = some (some ⟨0, 0, []⟩) ∧
    see answerOf (onC { s1 with perr := true } 0x02060000 0 []) = some (some ⟨0, 2, []⟩) := by decide

/-- V87, V89: INDEPTH, and two reserved numbers. -/
theorem test_csrRead_numbers :
    see answerOf (onC s0 0x02100000 0 []) = some (some ⟨0, 64, []⟩) ∧
    see answerOf (onC s0 0x02070000 0 []) = some (some ⟨5, 0, []⟩) ∧
    see answerOf (onC s0 0x02120000 0 []) = some (some ⟨5, 0, []⟩) := by decide

/-- V98, V93, V104: a legal definition, one whose field overruns the header, and a write-1-to-clear. -/
theorem test_csrWrite_values :
    see (fun t => (answerOf t, t.pktdef.word)) (onC s1 0x03020000 0x80010002 []) = some (some ⟨0, 0, []⟩, 0x80010002) ∧
    see (fun t => (answerOf t, t.pktdef.word)) (onC s1 0x03020000 0x80030102 []) = some (some ⟨4, 0, []⟩, 0) ∧
    see (fun t => (answerOf t, t.statusWord)) (onC { s1 with ovf := true, perr := true } 0x03060000 1 []) =
      some (some ⟨0, 0, []⟩, 2) := by decide

/-- V113, V117, V91: a reserved IMM and a read-only number come before the value; MODE 3 is PARAM. -/
theorem test_csrWrite_order :
    see answerOf (onC s1 0x03000001 3 []) = some (some ⟨5, 0, []⟩) ∧
    see answerOf (onC s1 0x03100000 0x1000000 []) = some (some ⟨5, 0, []⟩) ∧
    see (fun t => (answerOf t, t.mode)) (onC s1 0x03000000 3 []) = some (some ⟨4, 0, []⟩, .transparent) := by decide

/-- W1 step 3: the push wraps, cells 3, 0, 1 = 04, 05, 06. -/
theorem test_bufPush_wraps :
    see (fun t => (answerOf t, regs t.outRing)) (onC sW1 0x10010003 0 [4, 5, 6]) = some (some ⟨0, 3, []⟩, (4, 2, 2, 4)) ∧
    see (fun t => (t.cell .output 3, t.cell .output 0, t.cell .output 1, t.cell .output 2)) (onC sW1 0x10010003 0 [4, 5, 6]) =
      some (some 4, some 5, some 6, some 3) := by decide

/-- V4, V114: no space; and SEL = 0 comes before the space. -/
theorem test_bufPush_errors :
    see (fun t => (answerOf t, regs t.outRing)) (onC s1 0x10010005 0 [1, 2, 3, 4, 5]) =
      some (some ⟨2, 0, []⟩, (4, 0, 0, 0)) ∧
    see answerOf (onC s1 0x10000005 0 [1, 2, 3, 4, 5]) = some (some ⟨5, 0, []⟩) := by decide

/-- V9: a pop that wraps. -/
theorem test_bufPop_wraps :
    see (fun t => (answerOf t, regs t.outRing)) (onC sW 0x11010002 0 []) =
      some (some ⟨0, 2, [0xB1, 0xB2]⟩, (4, 1, 1, 0)) := by decide

/-- V6. -/
theorem test_bufPop_short : see answerOf (onC s1 0x11010001 0 []) = some (some ⟨1, 0, []⟩) := by decide

/-- V8: a peek that wraps, nothing removed. -/
theorem test_bufPeek_wraps :
    see (fun t => (answerOf t, regs t.outRing)) (onC sW 0x12010002 0 []) =
      some (some ⟨0, 2, [0xB1, 0xB2]⟩, (4, 3, 1, 2)) := by decide

/-- V10. -/
theorem test_bufPeek_short : see answerOf (onC sW 0x12010003 0 []) = some (some ⟨1, 0, []⟩) := by decide

/-- V11. -/
theorem test_bufDiscard_wraps :
    see (fun t => (answerOf t, regs t.outRing)) (onC sW 0x13010002 0 []) = some (some ⟨0, 2, []⟩, (4, 1, 1, 0)) := by
  decide

/-- V12. -/
theorem test_bufDiscard_short : see answerOf (onC s1 0x13010001 0 []) = some (some ⟨1, 0, []⟩) := by decide

/-- W9: 0 on insufficient data, not a partial count. -/
theorem test_readRaw_short :
    see (fun t => (answerOf t, t.inRing.occ)) (onC (s2 [1, 2, 3]) 0x20000004 0 []) = some (some ⟨0, 0, []⟩, 3) := by decide

/-- W9. -/
theorem test_readRaw_exact :
    see (fun t => (answerOf t, t.inRing.occ)) (onC (s2 [1, 2, 3]) 0x20000003 0 []) =
      some (some ⟨0, 3, [1, 2, 3]⟩, 0) := by decide

/-- V62, V63: the same bytes under the two orders of a two-byte length field. -/
theorem test_readPkt_orders :
    let d : List Byte := [0xC0, 0x05, 0x00, 1, 2, 3, 4, 5]
    see (fun t => (answerOf t, regs t.inRing))
      (onC { s2 d with pktdef := { hdr := 3, ofs := 1, var := true, lw := .twoLsbFirst, cfg := true } } 0x21000040 0 []) =
        some (some ⟨0, 8, d⟩, (16, 8, 8, 0)) ∧
    see (fun t => (answerOf t, regs t.inRing))
      (onC { s2 d with pktdef := { hdr := 3, ofs := 1, var := true, lw := .twoMsbFirst, cfg := true } } 0x21000040 0 []) =
        some (some ⟨3, 1283, []⟩, (16, 0, 8, 8)) := by decide

/-- W3 steps 4 and 7, W10: a fixed definition, and none. -/
theorem test_readPkt_fixed :
    let def' : PacketDef := { hdr := 2, ofs := 0, var := false, lw := .one, cfg := true }
    see answerOf (onC { s2 [0x10, 0x11, 0x12, 0x13] with pktdef := def', pktpay := 3 } 0x21000040 0 []) =
      some (some ⟨0, 0, []⟩) ∧
    see (fun t => (answerOf t, t.inRing.occ))
      (onC { s2 [0x10, 0x11, 0x12, 0x13, 0x14] with pktdef := def', pktpay := 3 } 0x21000040 0 []) =
        some (some ⟨0, 5, [0x10, 0x11, 0x12, 0x13, 0x14]⟩, 0) ∧
    see (fun t => (answerOf t, t.inRing.occ)) (onC (s2 [0x10, 0x11, 0x12, 0x13, 0x14]) 0x21000040 0 []) =
      some (some ⟨0, 0, []⟩, 5) := by decide

/-- V68, V70: a line, and one longer than the destination. -/
theorem test_readCmd_line :
    see (fun t => (answerOf t, regs t.inRing)) (onC (s2 [0x41, 0x54, 0x0D]) 0x22000020 0 []) =
      some (some ⟨0, 0x00010002, [0x41, 0x54]⟩, (16, 3, 3, 0)) ∧
    see (fun t => (answerOf t, regs t.inRing)) (onC (s2 [0x41, 0x54, 0x0D]) 0x22000001 0 []) =
      some (some ⟨3, 2, []⟩, (16, 0, 3, 3)) := by decide

/-- V72, V77: IN full with no terminator, and a capacity of 0. -/
theorem test_readCmd_no_terminator :
    see answerOf (onC sFull 0x22000020 0 []) = some (some ⟨3, 16, []⟩) ∧
    see answerOf (onC s0 0x22000020 0 []) = some (some ⟨0, 0, []⟩) := by decide

/-- V26, V24: EV_CMD once for two terminators, none without one. -/
theorem test_rx_command_event :
    let s : State := { s2 [] with mode := .command, even := 0xF }
    see eventsOf (onP s 0x40000002 [0x0D, 0x0D]) = some [.cmd] ∧ see eventsOf (onP s 0x40000002 [0x41, 0x54]) = some [] := by
  decide

/-- V31, V120: an overflow, and a malformed header while FAULTED. -/
theorem test_rx_overflow :
    see (fun t => (eventsOf t, regs t.inRing, t.statusWord)) (onP (sSix 8) 0x40000003 [7, 8, 9]) =
      some ([.ovf], (8, 0, 6, 6), 1) ∧
    see (fun t => (eventsOf t, t.statusWord)) (onP { sSix 8 with ovf := true } 0x41000000 []) = some ([], 3) := by decide

/-! ### Witnesses: the invariant -/

/-- R29 and the store's form, as one decidable condition. -/
def ringOk (depth : Nat) (r : Ring) : Bool :=
  decide (r.occ.toNat ≤ r.cap.toNat ∧ r.cap.toNat ≤ depth ∧ (r.cap = 0 → r.occ = 0 ∧ r.rd = 0 ∧ r.wr = 0) ∧
    (r.cap ≠ 0 → r.rd.toNat < r.cap.toNat) ∧ (r.cap ≠ 0 → r.wr.toNat < r.cap.toNat) ∧
    (r.cap ≠ 0 → r.wr.toNat = (r.rd.toNat + r.occ.toNat) % r.cap.toNat)) &&
  r.store.wf && r.store.all (fun c => decide (c.1 < depth)) &&
  (List.range r.occ.toNat).all (fun i => (r.store.read (r.readCell i)).isSome)

theorem ringInv {depth : Nat} {r : Ring} (h : ringOk depth r = true) : r.Inv depth := by
  simp only [ringOk, Bool.and_eq_true, decide_eq_true_eq, List.all_eq_true, List.mem_range] at h
  obtain ⟨⟨⟨⟨h1, h2, h3, h4, h5, h6⟩, h7⟩, h8⟩, h9⟩ := h
  exact ⟨⟨h1, h2, h3, h4, h5, h6⟩, h7, h8, h9⟩

/-- A state whose parts pass the checks meets the invariant. -/
theorem stateInv {s : State}
    (h : (decide (1 ≤ s.params.inDepth.toNat) && decide (1 ≤ s.params.outDepth.toNat) && ringOk (s.depth .input) s.inRing &&
      ringOk (s.depth .output) s.outRing && s.pktdef.legal) = true) : s.Inv := by
  simp only [Bool.and_eq_true, decide_eq_true_eq] at h
  obtain ⟨⟨⟨⟨h1, h2⟩, h3⟩, h4⟩, h5⟩ := h
  exact ⟨⟨h1, h2⟩, ringInv h3, ringInv h4, h5⟩

theorem witness_inv_s0 : s0.Inv := stateInv (by decide)
theorem witness_inv_s1 : s1.Inv := stateInv (by decide)
theorem witness_inv_sW : sW.Inv := stateInv (by decide)
theorem witness_inv_sW1 : sW1.Inv := stateInv (by decide)
theorem witness_inv_sFull : sFull.Inv := stateInv (by decide)
theorem witness_inv_sSix : (sSix 8).Inv := stateInv (by decide)

/-- A READ_PKT state: IN{16,0,n,n} with the given definition. -/
def sPkt (d : List Byte) (df : PacketDef) (pay : Half) : State := { s2 d with pktdef := df, pktpay := pay }

/-- The fixed definition of W3, and the variable one of V62, V63 with the given length field. -/
def fixedDef : PacketDef := { hdr := 2, ofs := 0, var := false, lw := .one, cfg := true }

def varDef (lw : LenWidth) : PacketDef := { hdr := 3, ofs := 1, var := true, lw := lw, cfg := true }

theorem witness_inv_fixed : (sPkt [0x10, 0x11, 0x12, 0x13, 0x14] fixedDef 3).Inv := stateInv (by decide)
theorem witness_inv_var : ∀ lw, (sPkt [0xC0, 0x05, 0x00, 1, 2, 3, 4, 5] (varDef lw) 0).Inv := by
  intro lw; cases lw <;> exact stateInv (by decide)
theorem witness_inv_line : (s2 [0x41, 0x54, 0x0D]).Inv := stateInv (by decide)

/-! ### Witnesses: one per obligation with hypotheses (a clause with its own hypotheses has its own) -/

theorem witness_PowerOnValues : s0.inRing.cap = 0 ∧ s0.ovf = false ∧ ([1] : List Byte) ≠ [] := by decide

theorem witness_PowerOnMeetsInvariant :
    Params.Legal { inDepth := 1, outDepth := 1 } ∧ Params.Legal { inDepth := 65535, outDepth := 65535 } :=
  ⟨⟨by decide, by decide⟩, ⟨by decide, by decide⟩⟩

/-- A state with one consumer transaction pending and scheduled. -/
def pendC (s : State) (cmd opa : Word) (din : List Byte) : State := s.issueNext (.consumer ⟨cmd, opa, din⟩)

/-- A state with one producer transaction pending and scheduled. -/
def pendP (s : State) (ph : Word) (d : List Byte) : State := s.issueNext (.producer ⟨ph, d⟩)

theorem witness_StepRunsDecodedTransaction_consumer :
    (pendC s1 0x20000003 0 []).schedule = .consumer :: [] ∧ (pendC s1 0x20000003 0 []).commands = ⟨0x20000003, 0, []⟩ :: [] ∧
      decode (.consumer ⟨0x20000003, 0, []⟩) = .ok (.readRaw 3) := by decide

theorem witness_StepRunsDecodedTransaction_producer :
    (pendP s1 0x40000001 [1]).schedule = .producer :: [] ∧ (pendP s1 0x40000001 [1]).spans = ⟨0x40000001, [1]⟩ :: [] ∧
      decode (.producer ⟨0x40000001, [1]⟩) = .ok (.rx [1]) := by decide

theorem witness_IdleTurnHoldsState :
    s1.schedule = [] ∧ ({ s1 with schedule := [.receiver] } : State).schedule = .receiver :: [] ∧
    (({ s1 with schedule := [.consumer] } : State).schedule = .consumer :: [] ∧
      ({ s1 with schedule := [.consumer] } : State).commands = []) ∧
    (({ s1 with schedule := [.producer] } : State).schedule = .producer :: [] ∧
      ({ s1 with schedule := [.producer] } : State).spans = []) := by decide

theorem witness_DecodeOfEncode : (Instr.bufPush (List.replicate 65535 0)).wellFormed = true ∧ (Instr.rx []).wellFormed = true := by
  refine ⟨?_, by decide⟩
  rw [Instr.wellFormed, List.length_replicate]; decide

theorem witness_EncodeOfDecode :
    decode (.consumer ⟨0x01000010, 8, []⟩) = .ok (.init 16 8) ∧ decode (.consumer ⟨0x02090000, 7, []⟩) = .ok (.csrRead 9) ∧
      decode (.producer ⟨0x40000000, []⟩) = .ok (.rx []) := by decide

theorem witness_RowSelectedByMatchAndMask :
    FormatC.wellFormed ⟨0x10010002, 0, [1, 2]⟩ = true ∧ FormatC.wellFormed ⟨0xFF000000, 0, []⟩ = true ∧
      FormatP.wellFormed ⟨0x40000001, [1]⟩ = true ∧ FormatP.wellFormed ⟨0x41000001, [1]⟩ = true := by decide

theorem witness_UnknownOpcodeIsIllegal :
    (pendC s1 0x14000000 0 []).schedule = .consumer :: [] ∧ (pendC s1 0x14000000 0 []).commands = ⟨0x14000000, 0, []⟩ :: [] ∧
      FormatC.wellFormed ⟨0x14000000, 0, []⟩ = true ∧
      opField 0x14000000 ∉ ([0x01, 0x02, 0x03, 0x10, 0x11, 0x12, 0x13, 0x20, 0x21, 0x22] : List Byte) := by decide

/-- One word for each of the four ways of ReservedFieldIsIllegal (V116, V113, V15, V14), issued on S1. -/
theorem witness_ReservedFieldIsIllegal :
    (pendC s1 0x01010041 0 []).schedule = .consumer :: [] ∧ (pendC s1 0x01010041 0 []).commands = ⟨0x01010041, 0, []⟩ :: [] ∧
    (FormatC.wellFormed ⟨0x01010041, 0, []⟩ = true ∧ opField 0x01010041 ∈ ([0x01, 0x20, 0x21, 0x22] : List Byte) ∧
      (0x01010041 : Word).extractLsb' 16 8 ≠ 0) ∧
    (FormatC.wellFormed ⟨0x03000001, 3, []⟩ = true ∧ opField 0x03000001 ∈ ([0x02, 0x03] : List Byte) ∧
      (0x03000001 : Word).extractLsb' 0 16 ≠ 0) ∧
    (FormatC.wellFormed ⟨0x11020001, 0, []⟩ = true ∧ opField 0x11020001 ∈ ([0x11, 0x12, 0x13] : List Byte) ∧
      (0x11020001 : Word).extractLsb' 17 7 ≠ 0) ∧
    (FormatC.wellFormed ⟨0x10000001, 0, [0]⟩ = true ∧ opField 0x10000001 = 0x10 ∧
      (0x10000001 : Word).getLsbD 16 = false) := by decide

theorem witness_MalformedHeaderOnlySetsPerr :
    (pendP { s1 with ovf := true } 0x41000000 []).schedule = .producer :: [] ∧
      (pendP { s1 with ovf := true } 0x41000000 []).spans = ⟨0x41000000, []⟩ :: [] ∧
      FormatP.wellFormed ⟨0x41000000, []⟩ = true ∧ (0x41000000 : Word).extractLsb' 16 16 ≠ 0x4000 := by decide

theorem witness_OperandWordIgnored :
    (pendC s1 0x12000001 0 []).schedule = .consumer :: [] ∧ opField 0x12000001 ≠ 0x01 ∧ opField 0x12000001 ≠ 0x03 := by decide

theorem witness_WrongLengthIsRefused :
    ((pendC s1 0x10010002 0 [1]).schedule = .consumer :: [] ∧ (pendC s1 0x10010002 0 [1]).commands = ⟨0x10010002, 0, [1]⟩ :: [] ∧
      ([1] : List Byte).length ≠
        (if opField 0x10010002 = 0x10 then ((0x10010002 : Word).extractLsb' 0 16).toNat else 0)) ∧
    ((pendP s1 0x40000002 [1]).schedule = .producer :: [] ∧ (pendP s1 0x40000002 [1]).spans = ⟨0x40000002, [1]⟩ :: [] ∧
      ([1] : List Byte).length ≠ ((0x40000002 : Word).extractLsb' 0 16).toNat) := by decide

/-- A push that fills the ring, and wraps. -/
theorem witness_BufPushAppends :
    sW1.Inv ∧ ([4, 5, 6] : List Byte).length ≤ sW1.outRing.cap.toNat - sW1.outRing.occ.toNat :=
  ⟨witness_inv_sW1, by decide⟩

theorem witness_BufPushWithoutSpace :
    sW1.outRing.cap.toNat - sW1.outRing.occ.toNat < ([4, 5, 6, 7] : List Byte).length := by decide

theorem witness_BufPopReturnsOldest : sW.Inv ∧ (2 : Half).toNat ≤ (sW.ring .output).occ.toNat := ⟨witness_inv_sW, by decide⟩

theorem witness_BufPeekReturnsOldest :
    (sSix 8).Inv ∧ (6 : Half).toNat ≤ ((sSix 8).ring .input).occ.toNat := ⟨witness_inv_sSix, by decide⟩

theorem witness_BufDiscardRemovesOldest : sW.Inv ∧ (0 : Half).toNat ≤ (sW.ring .input).occ.toNat := ⟨witness_inv_sW, by decide⟩

theorem witness_RemovalsNeedTheBytes : (sW.ring .output).occ.toNat < (3 : Half).toNat := by decide

theorem witness_StoringFrame :
    (∃ t, exec (.bufPush [4, 5, 6]) sW1 = .next t) ∧ (∃ t, exec (.rx [7, 8]) (sSix 0xF) = .next t) := ⟨⟨_, rfl⟩, ⟨_, rfl⟩⟩

theorem witness_TakingFrame :
    (∃ t, exec (.bufPop .output 2) sW = .next t) ∧ (∃ t, exec (.bufDiscard .output 1) sW = .next t) ∧
    (∃ t, exec (.bufPeek .output 2) sW = .next t) ∧ (∃ t, exec (.readRaw 2) (s2 [1, 2]) = .next t) ∧
    (∃ t, exec (.readPkt 64) (sPkt [0x10, 0x11, 0x12, 0x13, 0x14] fixedDef 3) = .next t) ∧
    (∃ t, exec (.readCmd 32) (s2 [0x41, 0x0D]) = .next t) :=
  ⟨⟨_, rfl⟩, ⟨_, rfl⟩, ⟨_, rfl⟩, ⟨_, rfl⟩, ⟨_, rfl⟩, ⟨_, rfl⟩⟩

/-- In each mode; the span that fills IN exactly. -/
theorem witness_RxPushesAndDispatches (m : SerialMode) :
    State.Inv { sSix 0xF with mode := m } ∧ ({ sSix 0xF with mode := m } : State).ovf = false ∧ ([7, 0x0D] : List Byte) ≠ [] ∧
      ([7, 0x0D] : List Byte).length ≤ (sSix 0xF).inRing.cap.toNat - (sSix 0xF).inRing.occ.toNat := by
  refine ⟨?_, rfl, by decide, by decide⟩
  cases m <;> exact stateInv (by decide)

/-- One byte more than is free; and, for the second clause, a span that fits and one that does not. -/
theorem witness_OverflowDetector :
    ((sSix 8).ovf = false ∧ ([7, 8, 9] : List Byte) ≠ [] ∧
      (sSix 8).inRing.cap.toNat - (sSix 8).inRing.occ.toNat < ([7, 8, 9] : List Byte).length) ∧
    (∃ t, exec (.rx [7, 8, 9]) (sSix 8) = .next t) ∧ (∃ t, exec (.rx [7, 8]) (sSix 8) = .next t) :=
  ⟨by decide, ⟨_, rfl⟩, ⟨_, rfl⟩⟩

theorem witness_FaultedLinkDropsEverySpan : ({ sSix 0xF with ovf := true } : State).ovf = true := by decide

theorem witness_ReadRawAllOrNothing :
    (s2 [1, 2, 3]).inRing.occ.toNat < (4 : Half).toNat ∧
    ((s2 [0x41, 0x54, 0x0D]).Inv ∧ (3 : Half) ≠ 0 ∧ (3 : Half).toNat ≤ (s2 [0x41, 0x54, 0x0D]).inRing.occ.toNat) :=
  ⟨by decide, witness_inv_line, by decide, by decide⟩

theorem witness_ReadPktUnconfigured : s1.pktdef.cfg = false := by decide

/-- The packet of W3 is held; `dst` may be 64 (taken), 4 (OVERSIZE). -/
theorem witness_ReadPktFixedDefinition :
    let s := sPkt [0x10, 0x11, 0x12, 0x13, 0x14] fixedDef 3
    s.Inv ∧ s.pktdef.cfg = true ∧ s.pktdef.var = false := ⟨witness_inv_fixed, rfl, rfl⟩

theorem witness_ReadPktVariableDefinition (lw : LenWidth) :
    let s := sPkt [0xC0, 0x05, 0x00, 1, 2, 3, 4, 5] (varDef lw) 0
    s.Inv ∧ s.pktdef.cfg = true ∧ s.pktdef.var = true := ⟨witness_inv_var lw, rfl, rfl⟩

theorem witness_ReadCmdTakesFirstLine :
    (sFull.Inv ∧ sFull.term ∉ sFull.inRing.held) ∧
    ((s2 [0x41, 0x54, 0x0D]).Inv ∧ (s2 [0x41, 0x54, 0x0D]).inRing.held[2]? = some (s2 [0x41, 0x54, 0x0D]).term ∧
      ∀ j, j < 2 → (s2 [0x41, 0x54, 0x0D]).inRing.held[j]? ≠ some (s2 [0x41, 0x54, 0x0D]).term) :=
  ⟨⟨witness_inv_sFull, by decide⟩, witness_inv_line, by decide, by decide⟩

theorem witness_ReadsIgnoreMode :
    Instr.readCmd 32 = .readRaw 32 ∨ Instr.readCmd 32 = .readPkt 32 ∨ Instr.readCmd 32 = .readCmd 32 := by decide

/-- "Not yet", OVERSIZE and ILLEGAL, each an answer to a read command. -/
theorem witness_FailedReadIsIdempotent :
    (opField 0x21000040 ∈ ([0x20, 0x21, 0x22] : List Byte) ∧ (pendC s1 0x21000040 0 []).turn = (some (.consumer ⟨0x21000040, 0, []⟩), s1) ∧
      step (pendC s1 0x21000040 0 []) = .next (s1.answer .ok 0 [])) ∧
    (opField 0x22000001 ∈ ([0x20, 0x21, 0x22] : List Byte) ∧
      step (pendC (s2 [0x41, 0x54, 0x0D]) 0x22000001 0 []) = .next ((s2 [0x41, 0x54, 0x0D]).answer .oversize 2 [])) ∧
    (opField 0x20010001 ∈ ([0x20, 0x21, 0x22] : List Byte) ∧
      step (pendC s1 0x20010001 0 []) = .next (s1.answer .illegal 0 [])) := by
  refine ⟨⟨by decide, rfl, rfl⟩, ⟨by decide, rfl⟩, ⟨by decide, rfl⟩⟩

/-- Both capacities at their depths. -/
theorem witness_InitReinitialises :
    (0x00000040 : Word).extractLsb' 16 16 = 0 ∧ (64 : Half).toNat ≤ s0.params.inDepth.toNat ∧
      ((0x00000040 : Word).extractLsb' 0 16).toNat ≤ s0.params.outDepth.toNat := by decide

/-- One past each depth, and the least non-zero OPA[31:16]. -/
theorem witness_InitOutOfRange :
    s0.params.inDepth.toNat < (65 : Half).toNat ∧ s0.params.outDepth.toNat < ((0x00000041 : Word).extractLsb' 0 16).toNat ∧
      (0x00010000 : Word).extractLsb' 16 16 ≠ 0 := by decide

theorem witness_ReservedAndReadOnlyRegisters :
    ((0x07 : Byte) = 0x07 ∨ 0x12 ≤ (0x07 : Byte).toNat) ∧ 0x12 ≤ (0x12 : Byte).toNat ∧ 0x12 ≤ (0xFF : Byte).toNat ∧
      0x07 ≤ (0x07 : Byte).toNat ∧ 0x07 ≤ (0x11 : Byte).toNat := by decide

/-- The largest legal value of each field. -/
theorem witness_CsrWriteStoresLegalValue :
    (1 : Word).toNat < 2 ∧ (0xFFFF : Word).toNat < 2 ^ 16 ∧ (0xFF : Word).toNat < 2 ^ 8 ∧ (0xF : Word).toNat < 2 ^ 4 := by
  decide

/-- The least illegal value of each field. -/
theorem witness_CsrWriteRejectsIllegalValue :
    3 ≤ (3 : Word).toNat ∧ 2 ≤ (2 : Word).toNat ∧ 2 ^ 16 ≤ (0x10000 : Word).toNat ∧ 2 ^ 8 ≤ (0x100 : Word).toNat ∧
      2 ^ 4 ≤ (0x10 : Word).toNat := by decide

/-- V98 (legal, its field ends inside the header), V99 (legal, fixed); V93, V97, V95 (illegal in each way). -/
theorem witness_PktdefWriteLegality :
    let lwBytes := fun v : Word => if v.extractLsb' 17 2 = 0 then 1 else 2
    let isLegal := fun v : Word => v.extractLsb' 19 12 = 0 ∧ v.extractLsb' 17 2 ≠ 3 ∧
      (v.getLsbD 16 = true → (v.extractLsb' 8 8).toNat + lwBytes v ≤ (v.extractLsb' 0 8).toNat)
    isLegal 0x80010002 ∧ isLegal 0x0000FF05 ∧ ¬ isLegal 0x80030102 ∧ ¬ isLegal 0x00060000 ∧ ¬ isLegal 0x80080000 := by decide

/-- V98's definition, reached from power-on reset by one step: its field ends just inside its header. -/
theorem witness_PktdefWriteLegality_reachable : ∃ t, Reachable t ∧ t.pktdef.var = true ∧ t.pktdef.hdr = 2 :=
  ⟨_, .step _ _ (.arrive s0 [.consumer] [⟨0x03020000, 0x80010002, []⟩] [] (.powerOn _ ⟨by decide, by decide⟩)) rfl,
    by decide, by decide⟩

theorem witness_StatusWriteOneToClear :
    (3 : Word).extractLsb' 2 30 = 0 ∧ (4 : Word).extractLsb' 2 30 ≠ 0 := by decide

theorem witness_CsrWriteThenRead :
    (0x02 : Byte).toNat ≤ 5 ∧ ∃ t, exec (.csrWrite 0x02 0x80010002) s1 = .next t ∧
      t.trace = s1.trace ++ [{ response := some { st := 0, res := 0, dout := [] }, events := [] }] :=
  ⟨by decide, _, rfl, rfl⟩

theorem witness_ControlFrame :
    (∃ t, exec (.csrRead 0x06) s1 = .next t) ∧ (∃ t, exec (.csrWrite 0x06 3) s1 = .next t) ∧ (∃ t, exec (.init 8 4) s0 = .next t) :=
  ⟨⟨_, rfl⟩, ⟨_, rfl⟩, ⟨_, rfl⟩⟩

/-- RX is about to execute: it is neither a read nor a write of ATEN. -/
theorem witness_AtenHasNoEffect :
    ∀ t, (pendP s1 0x40000001 [1]).turn.1 = some t →
      decode t ≠ .ok (.csrRead 0x01) ∧ ∀ w, decode t ≠ .ok (.csrWrite 0x01 w) := by
  intro t h
  obtain rfl : t = .producer ⟨0x40000001, [1]⟩ := by simpa [pendP] using h.symm
  rw [show decode (.producer ⟨0x40000001, [1]⟩) = .ok (.rx [1]) by decide]
  simp

theorem witness_StatusPerCommand :
    (∃ t, exec (.bufPop .output 3) sW = .next t) ∧ (∃ t, exec (.rx [7]) (sSix 0xF) = .next t) := ⟨⟨_, rfl⟩, ⟨_, rfl⟩⟩

/-- A code for each row of R102 that a consumer transaction returns, on the port. -/
theorem witness_StatusCodesReturned :
    (∃ t, (pendC sW 0x11010003 0 []).turn = (some (.consumer ⟨0x11010003, 0, []⟩), sW) ∧
      step (pendC sW 0x11010003 0 []) = .next t ∧ (answerOf t).map Response.st = some 1) ∧
    (∃ t, step (pendC s1 0x10010005 0 [1, 2, 3, 4, 5]) = .next t ∧ (answerOf t).map Response.st = some 2) ∧
    (∃ t, step (pendC (s2 [0x41, 0x54, 0x0D]) 0x22000001 0 []) = .next t ∧ (answerOf t).map Response.st = some 3) ∧
    (∃ t, step (pendC s0 0x01000041 0 []) = .next t ∧ (answerOf t).map Response.st = some 4) ∧
    (∃ t, step (pendC s1 0x14000000 0 []) = .next t ∧ (answerOf t).map Response.st = some 5) := by
  refine ⟨⟨_, rfl, rfl, rfl⟩, ⟨_, rfl, rfl⟩, ⟨_, rfl, rfl⟩, ⟨_, rfl, rfl⟩, ⟨_, rfl, rfl⟩⟩

theorem witness_ResponseDataLength :
    (s2 [0x41, 0x54, 0x0D]).Inv ∧ ∃ t r, exec (.readCmd 32) (s2 [0x41, 0x54, 0x0D]) = .next t ∧
      t.trace = (s2 [0x41, 0x54, 0x0D]).trace ++ [{ response := some r, events := [] }] :=
  ⟨witness_inv_line, _, _, rfl, rfl⟩

/-- A command turned away; an overflow; a span dropped while FAULTED; a malformed header. -/
theorem witness_ErrorsArePrecise :
    (∃ t o r, (pendC sW 0x11010003 0 []).turn = (some (.consumer ⟨0x11010003, 0, []⟩), sW) ∧
      step (pendC sW 0x11010003 0 []) = .next t ∧ t.trace = sW.trace ++ [o] ∧ o.response = some r ∧ r.st ≠ 0) ∧
    (∃ t, (pendP (sSix 8) 0x40000003 [7, 8, 9]).turn = (some (.producer ⟨0x40000003, [7, 8, 9]⟩), sSix 8) ∧
      step (pendP (sSix 8) 0x40000003 [7, 8, 9]) = .next t ∧ (sSix 8).ovf = false ∧ t.ovf = true) ∧
    (∃ t, step (pendP { sSix 8 with ovf := true } 0x40000001 [7]) = .next t ∧
      (0x40000001 : Word).extractLsb' 16 16 = 0x4000) ∧
    (∃ t, step (pendP (sSix 8) 0x41000000 []) = .next t ∧ (0x41000000 : Word).extractLsb' 16 16 ≠ 0x4000) := by
  refine ⟨⟨_, _, ⟨1, 0, []⟩, rfl, rfl, rfl, rfl, by decide⟩, ⟨_, rfl, rfl, rfl, rfl⟩, ⟨_, rfl, by decide⟩, ⟨_, rfl, by decide⟩⟩

theorem witness_AtMostOneEnabledEvent :
    ∃ t, (pendP (sSix 1) 0x40000001 [7]).turn = (some (.producer ⟨0x40000001, [7]⟩), sSix 1) ∧
      step (pendP (sSix 1) 0x40000001 [7]) = .next t := ⟨_, rfl, rfl⟩

/-- A push that is announced, an overflow that is, and a consumer command. -/
theorem witness_EventsEmittedExactly :
    (∃ t o, exec (.rx [7]) (sSix 1) = .next t ∧ t.trace = (sSix 1).trace ++ [o]) ∧
    (∃ t o, exec (.rx [7, 8, 9]) (sSix 8) = .next t ∧ t.trace = (sSix 8).trace ++ [o]) ∧
    (∃ t o, exec (.readRaw 1) (sSix 0xF) = .next t ∧ t.trace = (sSix 0xF).trace ++ [o]) :=
  ⟨⟨_, _, rfl, rfl⟩, ⟨_, _, rfl, rfl⟩, _, _, rfl, rfl⟩

theorem witness_StepKeepsInvariant :
    State.Inv (pendP (sSix 8) 0x40000002 [7, 8]) ∧ ∃ t, step (pendP (sSix 8) 0x40000002 [7, 8]) = .next t :=
  ⟨stateInv (by decide), _, rfl⟩

/-- S1 after an RX, reached from power-on reset by two steps. -/
theorem witness_RingInvariantReachable : ∃ t, Reachable t ∧ (t.ring .input).occ = 2 := by
  refine ⟨_, .step _ _ (.step _ _ (.arrive s0 [.consumer, .producer] [⟨0x01000008, 4, []⟩] [⟨0x40000002, [7, 8]⟩]
    (.powerOn _ ⟨by decide, by decide⟩)) rfl) rfl, by decide⟩

theorem witness_EveryTransactionCompletes :
    State.Inv (pendC sW 0x11010002 0 []) ∧ State.PendingWellFormed (pendC sW 0x11010002 0 []) := by
  refine ⟨stateInv (by decide), ⟨?_, ?_⟩⟩
  · simp [pendC, State.issueNext, sW, withRings, s0, State.powerOn, dinLength, opField]
  · simp [pendC, State.issueNext, sW, withRings, s0, State.powerOn]

/-- An overflow sets OVF; a write of STATUS and an INIT clear it. -/
theorem witness_OvfChangesOnlyAsStated :
    (∃ t, step (pendP (sSix 8) 0x40000003 [7, 8, 9]) = .next t ∧ (sSix 8).ovf = false ∧ t.ovf = true) ∧
    (∃ t, step (pendC { sSix 8 with ovf := true } 0x03060000 1 []) = .next t ∧ t.ovf = false) ∧
    (∃ t, step (pendC { sSix 8 with ovf := true } 0x01000008 4 []) = .next t ∧ t.ovf = false) := by
  refine ⟨⟨_, rfl, rfl, rfl⟩, ⟨_, rfl, rfl⟩, ⟨_, rfl, rfl⟩⟩

theorem witness_PerrChangesOnlyAsStated :
    (∃ t, step (pendP (sSix 8) 0x41000000 []) = .next t ∧ (sSix 8).perr = false ∧ t.perr = true) ∧
    (∃ t, step (pendC { sSix 8 with perr := true } 0x03060000 2 []) = .next t ∧ t.perr = false) ∧
    (∃ t, step (pendC { sSix 8 with perr := true } 0x01000008 4 []) = .next t ∧ t.perr = false) := by
  refine ⟨⟨_, rfl, rfl, rfl⟩, ⟨_, rfl, rfl⟩, ⟨_, rfl, rfl⟩⟩

/-- A push, which raises OCC; and a removal, which lowers it. -/
theorem witness_CapacitiesAndCursorsMoveOnlyAsStated :
    (sW1.Inv ∧ ∃ t, exec (.bufPush [4]) sW1 = .next t ∧ sW1.outRing.occ.toNat < t.outRing.occ.toNat) ∧
    (sW.Inv ∧ ∃ t, exec (.bufPop .output 1) sW = .next t ∧ t.outRing.occ.toNat < sW.outRing.occ.toNat) :=
  ⟨⟨witness_inv_sW1, _, rfl, by decide⟩, witness_inv_sW, _, rfl, by decide⟩

/-- W1 as a sequence on a ring of capacity 4. -/
theorem witness_FifoIntegrity :
    (4 : Half).toNat ≤ 64 ∧ Memory.wf [] = true ∧ (∀ c ∈ ([] : Memory), c.1 < 64) ∧
      fitsFrom (4 : Half).toNat [.push [1, 2, 3], .remove 2, .push [4, 5, 6], .remove 4] 0 = true := by decide

theorem witness_RingsAreQueues :
    (s2 [0x41, 0x54, 0x0D]).Inv ∧ (∃ t, exec (.readCmd 32) (s2 [0x41, 0x54, 0x0D]) = .next t) ∧
      ∀ ic opa, Instr.readCmd 32 ≠ .init ic opa := ⟨witness_inv_line, ⟨_, rfl⟩, by simp⟩

theorem witness_InitIsAtomicWithRx :
    s1.Inv ∧ ([1, 2] : List Byte).length ≤ (2 : Half).toNat ∧ (4 : Word).extractLsb' 16 16 = 0 ∧
      (2 : Half).toNat ≤ s1.params.inDepth.toNat ∧ ((4 : Word).extractLsb' 0 16).toNat ≤ s1.params.outDepth.toNat :=
  ⟨witness_inv_s1, by decide⟩

end Sys2Proof.Tests
end

section
/-! PROOFS. The statements of spec/00_scope.md: which instructions may move a ring's registers (O55), the invariant after
power-on reset (O2), and the turns at which nothing is executed (O4). -/

namespace Sys2Proof.Machine

/-! ### What moves a ring's registers (R25 to R28, R74) -/

/-- The instructions that may move WR or raise OCC of ring `b`: RX on IN, BUF_PUSH on OUT (R28). -/
def AddsTo (i : Instr) (b : RingId) : Prop :=
  b = .input ∧ (∃ d, i = .rx d) ∨ b = .output ∧ ∃ d, i = .bufPush d

/-- The instructions that may move RD or lower OCC of ring `b`: BUF_POP and BUF_DISCARD of that ring, the read commands on
IN (R27). -/
def RemovesFrom (i : Instr) (b : RingId) : Prop :=
  (∃ n, i = .bufPop b n ∨ i = .bufDiscard b n) ∨ b = .input ∧ ∃ n, i = .readRaw n ∨ i = .readPkt n ∨ i = .readCmd n

/-- Ring `q` may come of ring `r` by an instruction that is not INIT: same CAP, WR moved or OCC raised only if it adds, RD
moved or OCC lowered only if it removes. -/
def Ring.MovedBy (r q : Ring) (adds removes : Prop) : Prop :=
  q.cap = r.cap ∧ (q.wr ≠ r.wr ∨ r.occ.toNat < q.occ.toNat → adds) ∧ (q.rd ≠ r.rd ∨ q.occ.toNat < r.occ.toNat → removes)

theorem Ring.movedBy_refl (r : Ring) (adds removes : Prop) : r.MovedBy r adds removes := by
  simp [Ring.MovedBy]

theorem Ring.movedBy_dropped (r : Ring) (n : Nat) (adds : Prop) {removes : Prop} (hr : removes) :
    r.MovedBy (r.dropped n) adds removes := by
  simp [Ring.MovedBy, Ring.dropped_occ_toNat, hr]

theorem Ring.Inv.movedBy_push {depth : Nat} {r q : Ring} (h : r.Inv depth) {d : List Byte} (hd : d.length ≤ r.free)
    (hq : r.push depth d = .ok q) {adds : Prop} (removes : Prop) (ha : adds) : r.MovedBy q adds removes := by
  obtain ⟨q', hq', -, hcap, hrd, -, hocc, -⟩ := h.push_spec hd
  obtain rfl : q = q' := by simpa [hq] using hq'
  simp [Ring.MovedBy, hcap, hrd, hocc, ha]

/-- Replacing one ring moves that ring only. -/
theorem State.setRing_movedBy (s : State) {b : RingId} {q : Ring} {adds removes : RingId → Prop}
    (h : (s.ring b).MovedBy q (adds b) (removes b)) (c : RingId) :
    (s.ring c).MovedBy ((s.setRing b q).ring c) (adds c) (removes c) := by
  by_cases hc : c = b
  · subst hc; simpa using h
  · rw [s.setRing_ring_other b c q hc]; exact Ring.movedBy_refl _ _ _

/-- What an instruction that is not INIT moves, ring by ring. -/
theorem exec_movedBy {i : Instr} {s t : State} (hs : s.Inv) (he : exec i s = .next t)
    (hi : ∀ ic opa, i ≠ .init ic opa) (b : RingId) : (s.ring b).MovedBy (t.ring b) (AddsTo i b) (RemovesFrom i b) := by
  rcases exec_ring hs he hi with hsame | ⟨c, n, res, p, -, rfl, hcmd⟩ | ⟨c, d, q, hd, hq, hring, hcmd⟩
  · rw [hsame]; exact Ring.movedBy_refl _ _ _
  · have hrem : RemovesFrom i c := by
      rcases hcmd with ⟨k, rfl | ⟨rfl, rfl | rfl⟩, -⟩ | ⟨k, rfl⟩ | ⟨k, -, rfl, rfl, -⟩
      · exact .inl ⟨k, .inl rfl⟩
      · exact .inr ⟨rfl, k, .inl rfl⟩
      · exact .inr ⟨rfl, k, .inr (.inl rfl)⟩
      · exact .inl ⟨k, .inr rfl⟩
      · exact .inr ⟨rfl, k, .inr (.inr rfl)⟩
    rw [State.answer_ring]
    exact s.setRing_movedBy (Ring.movedBy_dropped _ n _ hrem) b
  · have hadd : AddsTo i c := hcmd.imp (And.imp_right fun h => ⟨d, h⟩) (And.imp_right fun h => ⟨d, h⟩)
    rw [hring]
    exact s.setRing_movedBy ((hs.ring c).movedBy_push hd hq _ hadd) b

/-- Settles O55: the parameters are among the fields no instruction changes (`exec_inputs`), and each ring moves as
`exec_movedBy` says. -/
theorem capacitiesAndCursorsMoveOnlyAsStated : Obligations.CapacitiesAndCursorsMoveOnlyAsStated :=
  fun _ _ _ hs he => ⟨(exec_inputs he).1, exec_movedBy hs he⟩

/-! ### The invariant after power-on reset (R29, R33, R270) -/

/-- A ring just powered on meets the ring invariant, whatever its depth. -/
theorem Ring.empty_inv (depth : Nat) : Ring.empty.Inv depth where
  occ_le_cap := Nat.le_refl 0
  cap_le_depth := Nat.zero_le depth
  empty_of_cap_zero _ := ⟨rfl, rfl, rfl⟩
  rd_lt_cap h0 := absurd rfl h0
  wr_lt_cap h0 := absurd rfl h0
  wr_eq h0 := absurd rfl h0
  store_wf := rfl
  store_in_depth := by simp [Ring.empty]
  held_written i hi := absurd hi (Nat.not_lt_zero i)

theorem State.powerOn_inv {p : Params} (hp : p.Legal) : (State.powerOn p).Inv :=
  ⟨hp, Ring.empty_inv _, Ring.empty_inv _, rfl⟩

theorem Config.params_legal : Config.params.Legal := ⟨by decide, by decide⟩

/-- Settles O2: both rings are empty and the definition is not variable; `State.reset` is the case of depths 64 and 64. -/
theorem powerOnMeetsInvariant : Obligations.PowerOnMeetsInvariant :=
  ⟨fun _ => State.powerOn_inv, State.powerOn_inv Config.params_legal⟩

/-! ### Turns without a transaction (R7, R253) -/

theorem State.turn_of_schedule_nil {s : State} (h : s.schedule = []) : s.turn = (none, s) := by
  simp only [State.turn, h]

theorem State.turn_of_receiver {s : State} {turns : List Agent} (h : s.schedule = .receiver :: turns) :
    s.turn = (none, { s with schedule := turns }) := by
  simp only [State.turn, h]

theorem State.turn_of_consumer_idle {s : State} {turns : List Agent} (h : s.schedule = .consumer :: turns)
    (hc : s.commands = []) : s.turn = (none, { s with schedule := turns }) := by
  simp only [State.turn, h, hc]

theorem State.turn_of_producer_idle {s : State} {turns : List Agent} (h : s.schedule = .producer :: turns)
    (hp : s.spans = []) : s.turn = (none, { s with schedule := turns }) := by
  simp only [State.turn, h, hp]

/-- Settles O4: each of the four turns takes no transaction, and such a turn is the whole step. -/
theorem idleTurnHoldsState : Obligations.IdleTurnHoldsState := fun _ =>
  ⟨fun h => step_of_turn_none (State.turn_of_schedule_nil h),
    fun _ h => step_of_turn_none (State.turn_of_receiver h),
    fun _ h hc => step_of_turn_none (State.turn_of_consumer_idle h hc),
    fun _ h hp => step_of_turn_none (State.turn_of_producer_idle h hp)⟩

end Sys2Proof.Machine
end

section
/-! PROOFS. The statements of spec/10_state.md: the invariant of the block (O50, O51), the legality of PKTDEF (O40), the two
flags of STATUS (O53, O54), and the register numbers that answer ILLEGAL (O37). -/

namespace Sys2Proof.Machine

/-! ### What changes the control registers -/

/-- What an instruction does to PKTDEF, OVF and PERR: INIT, a CSR_WRITE and an overflowing RX have an exact next state, every
other way to end leaves the three alone (R32, R37, R38). -/
theorem exec_control_cases {i : Instr} {s t : State} (he : exec i s = .next t) :
    (∃ ic oc opa, i = .init ic opa ∧ ic.toNat ≤ s.depth .input ∧ oc.toNat ≤ s.depth .output ∧
      t = (s.initialised ic oc).answer .ok 0 []) ∨
    (∃ r v c s', i = .csrWrite r v ∧ csrOf r = some c ∧ writeCsr s c v = .ok s' ∧ t = s'.answer .ok 0 []) ∨
    (∃ d, i = .rx d ∧ s.inRing.free < d.length ∧ t = (s.setOvf true).produced (s.emit .ovf)) ∨
    (t.pktdef = s.pktdef ∧ t.ovf = s.ovf ∧ t.perr = s.perr) := by
  cases i with
  | init ic opa =>
    rcases execInit_cases he with rfl | ⟨oc, -, hi, ho, rfl⟩
    · simp
    · exact .inl ⟨ic, oc, opa, rfl, hi, ho, rfl⟩
  | csrRead => rcases execCsrRead_cases he with rfl | ⟨_, -, rfl⟩ <;> simp
  | csrWrite r v =>
    rcases execCsrWrite_cases he with rfl | rfl | ⟨c, s', hc, hw, rfl⟩
    · simp
    · simp
    · exact .inr (.inl ⟨r, v, c, s', rfl, hc, hw, rfl⟩)
  | bufPush => rcases execBufPush_cases he with ⟨-, rfl⟩ | ⟨_, -, -, rfl⟩ <;> simp
  | bufPop => rcases execBufPop_cases he with rfl | ⟨_, _, -, -, -, rfl⟩ <;> simp
  | bufPeek => rcases execBufPeek_cases he with rfl | ⟨_, -, -, rfl⟩ <;> simp
  | bufDiscard => rcases execBufDiscard_cases he with rfl | ⟨_, -, -, rfl⟩ <;> simp
  | readRaw => rcases execReadRaw_cases he with rfl | ⟨_, _, -, -, -, -, rfl⟩ <;> simp
  | readPkt =>
    rcases execReadPkt_cases he with rfl | ⟨_, -, hu⟩
    · simp
    · rcases readUnit_cases hu with rfl | rfl | ⟨_, _, -, -, -, rfl⟩ <;> simp
  | readCmd => rcases execReadCmd_cases he with rfl | ⟨_, rfl⟩ | ⟨_, _, _, -, -, -, rfl⟩ <;> simp
  | rx d =>
    rcases execRx_cases he with ⟨-, rfl⟩ | ⟨-, hf, rfl⟩ | ⟨_, -, -, -, -, rfl⟩
    · simp
    · exact .inr (.inr (.inl ⟨d, rfl, hf, rfl⟩))
    · simp

/-! ### The invariant of the block (R24, R29, R33, R76) -/

/-- Whatever an instruction does to a ring (initialise it, take from its front, push to it), the ring keeps its invariant. -/
theorem exec_ring_inv {i : Instr} {s t : State} (hs : s.Inv) (he : exec i s = .next t) (b : RingId) :
    (t.ring b).Inv (s.depth b) := by
  by_cases hinit : ∃ ic opa, i = .init ic opa
  · obtain ⟨ic, opa, rfl⟩ := hinit
    rcases execInit_cases he with rfl | ⟨oc, -, hic, hoc, rfl⟩
    · simpa using hs.ring b
    · cases b
      · exact hs.inRing.initialised hic
      · exact hs.outRing.initialised hoc
  · have hi : ∀ ic opa, i ≠ .init ic opa := fun ic opa h => hinit ⟨ic, opa, h⟩
    rcases exec_ring hs he hi with hsame | ⟨c, n, res, p, hn, rfl, -⟩ | ⟨c, d, q, hd, hq, hring, -⟩
    · rw [hsame]; exact hs.ring b
    · simpa using (hs.setRing ((hs.ring c).dropped_inv hn)).ring b
    · obtain ⟨q', hq', hinv, -⟩ := (hs.ring c).push_spec hd
      obtain rfl : q = q' := by simpa [hq] using hq'
      rw [hring]
      simpa using (hs.setRing hinv).ring b

/-- A register write leaves PKTDEF or stores a legal definition there. -/
theorem writeCsr_pktdef_legal {s t : State} {c : Csr} {v : Word} (hd : s.pktdef.legal = true)
    (hw : writeCsr s c v = .ok t) : t.pktdef.legal = true := by
  rcases writeCsr_cases hw with ⟨m, -, -, -, rfl⟩ | ⟨-, -, rfl⟩ | ⟨d, -, hof, rfl⟩ | ⟨-, -, rfl⟩ | ⟨-, -, rfl⟩ |
    ⟨-, -, rfl⟩ | ⟨-, -, rfl⟩
  case inr.inr.inl => exact PacketDef.legal_of_ofWord hof
  all_goals exact hd

/-- Only INIT and CSR_WRITE change the definition: INIT clears CFG, which legality does not read (R33, R210). -/
theorem exec_pktdef_legal {i : Instr} {s t : State} (hd : s.pktdef.legal = true) (he : exec i s = .next t) :
    t.pktdef.legal = true := by
  rcases exec_control_cases he with ⟨ic, oc, opa, -, -, -, rfl⟩ | ⟨r, v, c, s', -, -, hw, rfl⟩ | ⟨d, -, -, rfl⟩ | ⟨h, -⟩
  · exact hd
  · simpa using writeCsr_pktdef_legal hd hw
  · exact hd
  · rwa [h]

theorem exec_inv {i : Instr} {s t : State} (hs : s.Inv) (he : exec i s = .next t) : t.Inv := by
  have hp : t.params = s.params := (exec_inputs he).1
  have hdepth : ∀ b, t.depth b = s.depth b := fun b => by cases b <;> simp only [State.depth, hp]
  exact ⟨hp ▸ hs.params_legal, hdepth .input ▸ exec_ring_inv hs he .input, hdepth .output ▸ exec_ring_inv hs he .output,
    exec_pktdef_legal hs.pktdef_legal he⟩

/-- Taking a turn touches the schedule and the queues only, of which the invariant does not speak. -/
theorem State.Inv.of_turn {s s' : State} {x : Option Txn} (hs : s.Inv) (h : s.turn = (x, s')) : s'.Inv := by
  obtain ⟨hp, hin, hout, -, -, hd, -⟩ := s.turn_block
  rw [h] at hp hin hout hd
  exact hs.congr hp hin hout hd

theorem step_inv {s t : State} (hs : s.Inv) (h : step s = .next t) : t.Inv := by
  rcases step_cases h with hidle | ⟨x, s', i, hturn, -, he⟩ | ⟨c, s', hturn, rfl⟩ | ⟨p, s', hturn, -, rfl⟩
  · exact hs.of_turn hidle
  · exact exec_inv (hs.of_turn hturn) he
  · exact (hs.of_turn hturn).answer _ _ _
  · exact (hs.of_turn hturn).congr rfl rfl rfl rfl

/-- Settles O50: an idle turn, an instruction and a rejected transaction each keep the invariant (`step_inv`). -/
theorem stepKeepsInvariant : Obligations.StepKeepsInvariant := fun _ _ => step_inv

theorem Reachable.inv {s : State} (h : Reachable s) : s.Inv := by
  induction h with
  | powerOn p hp => exact State.powerOn_inv hp
  | arrive s turns cs ps _ ih => exact ih.congr rfl rfl rfl rfl
  | step s t _ hstep ih => exact step_inv ih hstep

/-- Settles O51: R29 clause by clause, from the invariant of every reachable state. -/
theorem ringInvariantReachable : Obligations.RingInvariantReachable := by
  intro s b h
  have hr : (s.ring b).Inv (s.depth b) := h.inv.ring b
  exact ⟨hr.occ_le_cap, hr.cap_le_depth, hr.empty_of_cap_zero, fun h0 => ⟨hr.rd_lt_cap h0, hr.wr_lt_cap h0, hr.wr_eq h0⟩⟩

/-! ### CSR_WRITE and CSR_READ by register number (R40, R211, R212) -/

theorem exec_csrRead_of_reserved {r : Byte} (s : State) (h : csrOf r = none) :
    exec (.csrRead r) s = .next (s.answer .illegal 0 []) := by
  simp only [exec, execCsrRead, h, finish_eq]

theorem exec_csrWrite_of_reserved {r : Byte} (s : State) (v : Word) (h : csrOf r = none) :
    exec (.csrWrite r v) s = .next (s.answer .illegal 0 []) := by
  simp only [exec, execCsrWrite, h, finish_eq]

theorem exec_csrWrite_of_ok {r : Byte} {s s' : State} {v : Word} {c : Csr} (h : csrOf r = some c)
    (hw : writeCsr s c v = .ok s') : exec (.csrWrite r v) s = .next (s'.answer .ok 0 []) := by
  simp only [exec, execCsrWrite, h, hw, finish_eq]

theorem exec_csrWrite_of_error {r : Byte} {s : State} {v : Word} {c : Csr} {st : Status} (h : csrOf r = some c)
    (hw : writeCsr s c v = .error st) : exec (.csrWrite r v) s = .next (s.answer st 0 []) := by
  simp only [exec, execCsrWrite, h, hw, finish_eq]

/-- The read-only registers are those numbered above STATUS (R41). -/
theorem writeCsr_of_readOnly (s : State) (v : Word) {c : Csr} (h : 0x07 ≤ c.num.toNat) :
    writeCsr s c v = .error .illegal := by
  cases c
  case mode | aten | pktdef | pktpay | term | even | status => exact absurd h (by decide)
  all_goals rfl

/-- Settles O37: a number names no register (`csrOf_eq_none_iff`) or, from 0x07 up, a read-only one. -/
theorem reservedAndReadOnlyRegisters : Obligations.ReservedAndReadOnlyRegisters := by
  intro s r v
  refine ⟨fun h => exec_csrRead_of_reserved s ((csrOf_eq_none_iff r).2 h), fun h => ?_⟩
  cases hc : csrOf r with
  | none => exact exec_csrWrite_of_reserved s v hc
  | some c => exact exec_csrWrite_of_error hc (writeCsr_of_readOnly s v (csrOf_eq_some hc ▸ h))

/-! ### The legality of PKTDEF (R32, R33) -/

/-- The length-field form of a 2-bit value other than 3 (R32). -/
def LenWidth.named (v : BitVec 2) : LenWidth := if v = 0 then .one else if v = 1 then .twoLsbFirst else .twoMsbFirst

theorem LenWidth.ofBits_three : LenWidth.ofBits 3 = none := rfl

theorem LenWidth.ofBits_of_ne_three {v : BitVec 2} (h : v ≠ 3) : LenWidth.ofBits v = some (LenWidth.named v) := by
  revert v; decide

theorem LenWidth.named_bytes (v : BitVec 2) : (LenWidth.named v).bytes = if v = 0 then 1 else 2 := by
  revert v; decide

theorem PacketDef.legal_iff (d : PacketDef) :
    d.legal = true ↔ (d.var = true → d.ofs.toNat + d.lw.bytes ≤ d.hdr.toNat) := by
  cases hv : d.var <;> simp [PacketDef.legal, hv]

/-- The definition a word spells, field by field (R32). -/
def PacketDef.named (v : Word) : PacketDef :=
  { hdr := v.extractLsb' 0 8, ofs := v.extractLsb' 8 8, var := v.getLsbD 16, lw := .named (v.extractLsb' 17 2),
    cfg := v.getLsbD 31 }

/-- R33: the word's reserved bits are 0, its LW is not 3, and a variable definition's length field lies in its header. -/
def PacketDef.LegalWord (v : Word) : Prop :=
  v.extractLsb' 19 12 = 0 ∧ v.extractLsb' 17 2 ≠ 3 ∧
    (v.getLsbD 16 = true →
      (v.extractLsb' 8 8).toNat + (if v.extractLsb' 17 2 = 0 then 1 else 2) ≤ (v.extractLsb' 0 8).toNat)

theorem PacketDef.named_legal_iff (v : Word) :
    (PacketDef.named v).legal = true ↔ (v.getLsbD 16 = true →
      (v.extractLsb' 8 8).toNat + (if v.extractLsb' 17 2 = 0 then 1 else 2) ≤ (v.extractLsb' 0 8).toNat) := by
  rw [PacketDef.legal_iff, ← LenWidth.named_bytes]; rfl

theorem PacketDef.ofWord_of_lw {v : Word} (hr : v.extractLsb' 19 12 = 0) (hlw : v.extractLsb' 17 2 ≠ 3) :
    PacketDef.ofWord v = if (PacketDef.named v).legal then some (PacketDef.named v) else none := by
  rw [PacketDef.ofWord, if_pos hr, LenWidth.ofBits_of_ne_three hlw]; rfl

theorem PacketDef.ofWord_of_legalWord {v : Word} (h : PacketDef.LegalWord v) :
    PacketDef.ofWord v = some (PacketDef.named v) := by
  obtain ⟨hr, hlw, hlen⟩ := h
  rw [PacketDef.ofWord_of_lw hr hlw, if_pos ((PacketDef.named_legal_iff v).2 hlen)]

theorem PacketDef.ofWord_of_not_legalWord {v : Word} (h : ¬ PacketDef.LegalWord v) : PacketDef.ofWord v = none := by
  by_cases hr : v.extractLsb' 19 12 = 0
  · by_cases hlw : v.extractLsb' 17 2 = 3
    · rw [PacketDef.ofWord, if_pos hr, hlw, LenWidth.ofBits_three]
    · rw [PacketDef.ofWord_of_lw hr hlw, if_neg fun hl => h ⟨hr, hlw, (PacketDef.named_legal_iff v).1 hl⟩]
  · exact if_neg hr

theorem writeCsr_pktdef_of_some (s : State) {v : Word} {d : PacketDef} (h : PacketDef.ofWord v = some d) :
    writeCsr s .pktdef v = .ok (s.setPktdef d) := by
  simp only [writeCsr, h]

theorem writeCsr_pktdef_of_none (s : State) {v : Word} (h : PacketDef.ofWord v = none) :
    writeCsr s .pktdef v = .error .param := by
  simp only [writeCsr, h]

/-- Settles O40: `PacketDef.ofWord` answers the named definition exactly on the words R33 calls legal, and legality is part of
the invariant. -/
theorem pktdefWriteLegality : Obligations.PktdefWriteLegality := by
  refine ⟨fun s v => ⟨fun h => ?_, fun h => ?_⟩, fun s hs hvar => ?_⟩
  · exact exec_csrWrite_of_ok rfl (writeCsr_pktdef_of_some s (PacketDef.ofWord_of_legalWord h))
  · exact exec_csrWrite_of_error rfl (writeCsr_pktdef_of_none s (PacketDef.ofWord_of_not_legalWord h))
  · have hlegal := (PacketDef.legal_iff _).1 hs.inv.pktdef_legal hvar
    cases hlw : s.pktdef.lw <;> simpa [hlw, LenWidth.bytes] using hlegal

/-! ### The flags of STATUS (R37, R38, R213) -/

/-- RX stands on the producer port alone. -/
theorem producer_of_decode_rx {x : Txn} {d : List Byte} (h : decode x = .ok (.rx d)) : ∃ p, x = .producer p := by
  cases x with
  | consumer c => exact absurd (decode_consumer_ok h).2 (decodeCommand_ne_rx c d)
  | producer p => exact ⟨p, rfl⟩

/-- Every instruction but RX stands on the consumer port. -/
theorem consumer_of_decode {x : Txn} {i : Instr} (h : decode x = .ok i) (hi : ∀ d, i ≠ .rx d) : ∃ c, x = .consumer c := by
  cases x with
  | consumer c => exact ⟨c, rfl⟩
  | producer p =>
    rcases decode_producer_cases p with ⟨-, h'⟩ | ⟨-, -, h'⟩ | ⟨-, -, h'⟩ <;> rw [h'] at h <;> cases h
    exact absurd rfl (hi _)

/-- A register write leaves both flags, unless it writes STATUS, where a 1 bit clears its flag (R213). -/
theorem writeCsr_flags {s t : State} {c : Csr} {v : Word} (hw : writeCsr s c v = .ok t) :
    t.ovf = s.ovf ∧ t.perr = s.perr ∨
    c = .status ∧ t.ovf = (s.ovf && !v.getLsbD 0) ∧ t.perr = (s.perr && !v.getLsbD 1) := by
  rcases writeCsr_cases hw with ⟨m, -, -, -, rfl⟩ | ⟨-, -, rfl⟩ | ⟨d, -, -, rfl⟩ | ⟨-, -, rfl⟩ | ⟨-, -, rfl⟩ |
    ⟨-, -, rfl⟩ | ⟨rfl, -, rfl⟩ <;> simp

/-- What a step does to the two flags, and by which transaction. -/
theorem step_flags {s t : State} (h : step s = .next t) :
    t.ovf = s.ovf ∧ t.perr = s.perr ∨
    (∃ c s' ic opa, s.turn = (some (.consumer c), s') ∧ decode (.consumer c) = .ok (.init ic opa) ∧
      t.ovf = false ∧ t.perr = false) ∨
    (∃ c s' v, s.turn = (some (.consumer c), s') ∧ decode (.consumer c) = .ok (.csrWrite 0x06 v) ∧
      t.ovf = (s.ovf && !v.getLsbD 0) ∧ t.perr = (s.perr && !v.getLsbD 1)) ∨
    (∃ p s' d, s.turn = (some (.producer p), s') ∧ decode (.producer p) = .ok (.rx d) ∧ s.inRing.free < d.length ∧
      t.ovf = true ∧ t.perr = s.perr) ∨
    (∃ p s', s.turn = (some (.producer p), s') ∧ prefixField p.ph ≠ 0x4000 ∧ t.ovf = s.ovf ∧ t.perr = true) := by
  obtain ⟨-, hin, -, -, -, -, -, -, -, hovf, hperr, -⟩ := s.turn_block
  rcases step_cases h with hturn | ⟨x, s', i, hturn, hdec, he⟩ | ⟨c, s', hturn, rfl⟩ | ⟨p, s', hturn, hpre, rfl⟩ <;>
    simp only [hturn] at hin hovf hperr
  · exact .inl ⟨hovf, hperr⟩
  · rcases exec_control_cases he with ⟨ic, oc, opa, rfl, -, -, rfl⟩ | ⟨r, v, c, s'', rfl, hc, hw, rfl⟩ | ⟨d, rfl, hf, rfl⟩ |
      ⟨-, ho, hp⟩
    · obtain ⟨c, rfl⟩ := consumer_of_decode hdec (by simp)
      exact .inr (.inl ⟨c, s', ic, opa, hturn, hdec, rfl, rfl⟩)
    · obtain ⟨k, rfl⟩ := consumer_of_decode hdec (by simp)
      rcases writeCsr_flags hw with ⟨ho, hp⟩ | ⟨rfl, ho, hp⟩
      · exact .inl ⟨ho.trans hovf, hp.trans hperr⟩
      · obtain rfl := csrOf_eq_some hc
        rw [hovf] at ho
        rw [hperr] at hp
        exact .inr (.inr (.inl ⟨k, s', v, hturn, hdec, ho, hp⟩))
    · obtain ⟨p, rfl⟩ := producer_of_decode_rx hdec
      exact .inr (.inr (.inr (.inl ⟨p, s', d, hturn, hdec, hin ▸ hf, rfl, hperr⟩)))
    · exact .inl ⟨ho.trans hovf, hp.trans hperr⟩
  · exact .inl ⟨hovf, hperr⟩
  · exact .inr (.inr (.inr (.inr ⟨p, s', hturn, hpre, hovf, rfl⟩)))

/-- Settles O53: of the cases of `step_flags`, the overflowing RX alone leaves OVF set where it was clear, and INIT and the
write of STATUS alone the other way round. -/
theorem ovfChangesOnlyAsStated : Obligations.OvfChangesOnlyAsStated := by
  intro s t h
  rcases step_flags h with ⟨ho, -⟩ | ⟨c, s', ic, opa, hturn, hdec, ho, -⟩ | ⟨c, s', v, hturn, hdec, ho, -⟩ |
    ⟨p, s', d, hturn, hdec, hf, ho, -⟩ | ⟨p, s', -, -, ho, -⟩
  · simp +contextual [ho]
  · exact ⟨by simp [ho], fun _ _ => ⟨c, s', hturn, .inr ⟨ic, opa, hdec⟩⟩⟩
  · refine ⟨fun h0 h1 => by simp [ho, h0] at h1, fun h0 h1 => ⟨c, s', hturn, .inl ⟨v, hdec, ?_⟩⟩⟩
    simpa [ho, h0] using h1
  · exact ⟨fun _ _ => ⟨p, d, s', hturn, hdec, hf⟩, by simp [ho]⟩
  · simp +contextual [ho]

/-- Settles O54: of the cases of `step_flags`, the malformed header alone leaves PERR set where it was clear, and INIT and the
write of STATUS alone the other way round. -/
theorem perrChangesOnlyAsStated : Obligations.PerrChangesOnlyAsStated := by
  intro s t h
  rcases step_flags h with ⟨-, hp⟩ | ⟨c, s', ic, opa, hturn, hdec, -, hp⟩ | ⟨c, s', v, hturn, hdec, -, hp⟩ |
    ⟨p, s', d, -, -, -, -, hp⟩ | ⟨p, s', hturn, hpre, -, hp⟩
  · simp +contextual [hp]
  · exact ⟨by simp [hp], fun _ _ => ⟨c, s', hturn, .inr ⟨ic, opa, hdec⟩⟩⟩
  · refine ⟨fun h0 h1 => by simp [hp, h0] at h1, fun h0 h1 => ⟨c, s', hturn, .inl ⟨v, hdec, ?_⟩⟩⟩
    simpa [hp, h0] using h1
  · simp +contextual [hp]
  · exact ⟨fun _ _ => ⟨p, s', hturn, hpre⟩, by simp [hp]⟩

end Sys2Proof.Machine
end

section
/-! PROOFS. The statements of spec/20_memory.md: the step (O3), a count of 0 (O20), the frames (O21, O22, O43), the FIFO
discipline of the rings (O56, O57), and the completion of every transaction (O52). -/

namespace Sys2Proof.Machine

/-! ### Turns with a transaction (R71, R73) -/

theorem State.turn_of_consumer {s : State} {turns : List Agent} {c : FormatC} {cs : List FormatC}
    (h : s.schedule = .consumer :: turns) (hc : s.commands = c :: cs) :
    s.turn = (some (.consumer c), { s with schedule := turns, commands := cs }) := by
  simp only [State.turn, h, hc]

theorem State.turn_of_producer {s : State} {turns : List Agent} {p : FormatP} {ps : List FormatP}
    (h : s.schedule = .producer :: turns) (hp : s.spans = p :: ps) :
    s.turn = (some (.producer p), { s with schedule := turns, spans := ps }) := by
  simp only [State.turn, h, hp]

/-- Settles O3: the turn of either agent takes the first transaction of its queue, which the step then runs. -/
theorem stepRunsDecodedTransaction : Obligations.StepRunsDecodedTransaction :=
  ⟨fun _ _ _ _ _ h hc hd => step_of_turn_ok (State.turn_of_consumer h hc) hd,
    fun _ _ _ _ _ h hp hd => step_of_turn_ok (State.turn_of_producer h hp) hd⟩

/-! ### A count of 0 (R65) -/

@[simp] theorem Ring.push_nil (depth : Nat) (r : Ring) : r.push depth [] = .ok r := rfl

@[simp] theorem Ring.peek_zero (depth : Nat) (r : Ring) : r.peek depth 0 = .ok [] := rfl

@[simp] theorem Ring.drop_zero (r : Ring) : r.drop 0 = .ok r := rfl

theorem deliver_zero (s : State) (b : RingId) : deliver s b 0 = .next (s.answer .ok 0 []) := by
  simp [deliver, State.pop, bind, Except.bind]

theorem execRx_nil (s : State) : execRx [] s = .next (s.produced []) := by
  simp [execRx]

/-- Settles O20: no count test fails with 0, and the ring primitives answer the ring itself whatever its capacity. -/
theorem countZeroChangesNothing : Obligations.CountZeroChangesNothing := by
  intro s
  refine ⟨?_, fun b => ⟨?_, ?_, ?_⟩, ?_, execRx_nil s⟩
  · simp [exec, execBufPush, ← State.ring_output]
  · simp [exec, execBufPop, deliver_zero]
  · simp [exec, execBufPeek, zext32]
  · simp [exec, execBufDiscard, zext32]
  · simp [exec, execReadRaw]

/-! ### The cells under the updates (R24) -/

@[simp] theorem State.answer_cell (s : State) (st : Status) (res : Word) (dout : List Byte) (b : RingId) (a : Nat) :
    (s.answer st res dout).cell b a = s.cell b a := by
  simp [State.cell]

theorem State.setRing_cell_of_read {s : State} {b : RingId} {q : Ring} {a : Nat}
    (h : q.store.read a = (s.ring b).store.read a) (c : RingId) : (s.setRing b q).cell c a = s.cell c a := by
  by_cases hc : c = b
  · subst hc; simpa [State.cell] using h
  · simp only [State.cell, s.setRing_ring_other b c q hc]

/-- Settles O21: a command that stores nothing answers the state but for its output or OVF; one that stores is a push, of which
`Ring.push_cases` says what stays. -/
theorem storingFrame : Obligations.StoringFrame := by
  constructor
  · intro s t d he
    rcases execBufPush_cases he with ⟨-, rfl⟩ | ⟨q, -, hq, rfl⟩
    · simp
    · obtain ⟨hcap, hrd, hcell⟩ := Ring.push_cases hq
      exact ⟨fun a ha => by simpa using State.setRing_cell_of_read (hcell a ha) .output, fun _ => rfl, by simp [hcap, hrd]⟩
  · intro s t d he
    rcases execRx_cases he with ⟨-, rfl⟩ | ⟨-, -, rfl⟩ | ⟨q, -, -, -, hq, rfl⟩
    · simp [State.cell]
    · simp [State.cell]
    · obtain ⟨hcap, hrd, hcell⟩ := Ring.push_cases hq
      exact ⟨fun a ha => State.setRing_cell_of_read (hcell a ha) .input, fun _ => rfl, by simp [hcap, hrd]⟩

/-! ### The commands that take or look at bytes (R63, R64) -/

/-- The instructions that take bytes of ring `b` or look at them. -/
def ReadsFrom (i : Instr) (b : RingId) : Prop :=
  (∃ n, i = .bufPop b n ∨ i = .bufPeek b n ∨ i = .bufDiscard b n) ∨
    b = .input ∧ ∃ n, i = .readRaw n ∨ i = .readPkt n ∨ i = .readCmd n

/-- State `t` is state `s` with an answer given and at most RD and OCC of ring `b` moved. -/
def State.TakenTo (s t : State) (b : RingId) : Prop :=
  ∃ q st res dout, t = (s.setRing b q).answer st res dout ∧
    q.store = (s.ring b).store ∧ q.cap = (s.ring b).cap ∧ q.wr = (s.ring b).wr

theorem State.takenTo_answer (s : State) (b : RingId) (st : Status) (res : Word) (dout : List Byte) :
    s.TakenTo (s.answer st res dout) b :=
  ⟨s.ring b, st, res, dout, by rw [State.setRing_ring], rfl, rfl, rfl⟩

theorem State.takenTo_drop {s : State} {b : RingId} {n : Nat} {q : Ring} (h : (s.ring b).drop n = .ok q) (st : Status)
    (res : Word) (dout : List Byte) : s.TakenTo ((s.setRing b q).answer st res dout) b := by
  obtain ⟨hstore, hcap, hwr, -⟩ := Ring.drop_cases h
  exact ⟨q, st, res, dout, rfl, hstore, hcap, hwr⟩

theorem readUnit_takenTo {total : Nat} {dst : Half} {s t : State} (h : readUnit total dst s = .next t) :
    s.TakenTo t .input := by
  rcases readUnit_cases h with rfl | rfl | ⟨p, q, -, -, hd, rfl⟩
  · exact s.takenTo_answer _ _ _ _
  · exact s.takenTo_answer _ _ _ _
  · exact State.takenTo_drop (b := .input) hd _ _ _

theorem exec_takenTo {i : Instr} {b : RingId} {s t : State} (hi : ReadsFrom i b) (he : exec i s = .next t) :
    s.TakenTo t b := by
  rcases hi with ⟨n, rfl | rfl | rfl⟩ | ⟨rfl, n, rfl | rfl | rfl⟩
  · rcases execBufPop_cases he with rfl | ⟨p, q, -, -, hd, rfl⟩
    · exact s.takenTo_answer _ _ _ _
    · exact State.takenTo_drop hd _ _ _
  · rcases execBufPeek_cases he with rfl | ⟨p, -, -, rfl⟩ <;> exact s.takenTo_answer _ _ _ _
  · rcases execBufDiscard_cases he with rfl | ⟨q, -, hd, rfl⟩
    · exact s.takenTo_answer _ _ _ _
    · exact State.takenTo_drop hd _ _ _
  · rcases execReadRaw_cases he with rfl | ⟨p, q, -, -, -, hd, rfl⟩
    · exact s.takenTo_answer _ _ _ _
    · exact State.takenTo_drop (b := .input) hd _ _ _
  · rcases execReadPkt_cases he with rfl | ⟨total, -, hu⟩
    · exact s.takenTo_answer _ _ _ _
    · exact readUnit_takenTo hu
  · rcases execReadCmd_cases he with rfl | ⟨res, rfl⟩ | ⟨bytes, k, q, -, -, hd, rfl⟩
    · exact s.takenTo_answer _ _ _ _
    · exact s.takenTo_answer _ _ _ _
    · exact State.takenTo_drop (b := .input) hd _ _ _

/-- Settles O22: each of the six commands at most moves RD and OCC of its ring (`exec_takenTo`). -/
theorem takingFrame : Obligations.TakingFrame := by
  intro s t b i hi he
  obtain ⟨q, st, res, dout, rfl, hstore, hcap, hwr⟩ := exec_takenTo hi he
  have hcell : ∀ c a, (s.setRing b q).cell c a = s.cell c a := fun c a => State.setRing_cell_of_read (by rw [hstore]) c
  have hother : ∀ c, c ≠ b → (s.setRing b q).ring c = s.ring c := fun c => s.setRing_ring_other b c q
  exact ⟨by simpa using hcell, by simpa using hother, by simp [hcap, hwr]⟩

/-! ### The control commands (R210 to R213) -/

/-- A register write leaves every register but the one written. -/
theorem writeCsr_other {s t : State} {c : Csr} {v : Word} (hw : writeCsr s c v = .ok t) :
    (c ≠ .mode → t.mode = s.mode) ∧ (c ≠ .aten → t.aten = s.aten) ∧ (c ≠ .pktdef → t.pktdef = s.pktdef) ∧
    (c ≠ .pktpay → t.pktpay = s.pktpay) ∧ (c ≠ .term → t.term = s.term) ∧ (c ≠ .even → t.even = s.even) ∧
    (c ≠ .status → t.ovf = s.ovf ∧ t.perr = s.perr) := by
  rcases writeCsr_cases hw with ⟨m, rfl, -, -, rfl⟩ | ⟨rfl, -, rfl⟩ | ⟨d, rfl, -, rfl⟩ | ⟨rfl, -, rfl⟩ | ⟨rfl, -, rfl⟩ |
    ⟨rfl, -, rfl⟩ | ⟨rfl, -, rfl⟩ <;> simp

theorem Csr.num_ne_of_ne {c d : Csr} (h : c.num ≠ d.num) : c ≠ d := fun e => h (e ▸ rfl)

theorem execCsrRead_frame {r : Byte} {s t : State} (he : execCsrRead r s = .next t) : { t with trace := s.trace } = s := by
  rcases execCsrRead_cases he with rfl | ⟨c, -, rfl⟩ <;> rfl

theorem execCsrWrite_frame {r : Byte} {v : Word} {s t : State} (he : execCsrWrite r v s = .next t) :
    (∀ b, t.ring b = s.ring b) ∧
    (r ≠ 0x00 → t.mode = s.mode) ∧ (r ≠ 0x01 → t.aten = s.aten) ∧ (r ≠ 0x02 → t.pktdef = s.pktdef) ∧
    (r ≠ 0x03 → t.pktpay = s.pktpay) ∧ (r ≠ 0x04 → t.term = s.term) ∧ (r ≠ 0x05 → t.even = s.even) ∧
    (r ≠ 0x06 → t.ovf = s.ovf ∧ t.perr = s.perr) := by
  rcases execCsrWrite_cases he with rfl | rfl | ⟨c, s', hc, hw, rfl⟩
  · simp
  · simp
  · obtain rfl := csrOf_eq_some hc
    obtain ⟨hmode, haten, hpktdef, hpktpay, hterm, heven, hstatus⟩ := writeCsr_other hw
    refine ⟨by simpa using (writeCsr_frame hw).1, ?_⟩
    exact ⟨fun h => hmode (Csr.num_ne_of_ne h), fun h => haten (Csr.num_ne_of_ne h), fun h => hpktdef (Csr.num_ne_of_ne h),
      fun h => hpktpay (Csr.num_ne_of_ne h), fun h => hterm (Csr.num_ne_of_ne h), fun h => heven (Csr.num_ne_of_ne h),
      fun h => hstatus (Csr.num_ne_of_ne h)⟩

theorem execInit_frame {ic : Half} {opa : Word} {s t : State} (he : execInit ic opa s = .next t) :
    (∀ b, (t.ring b).store = (s.ring b).store) ∧
    t.aten = s.aten ∧ t.pktpay = s.pktpay ∧ t.term = s.term ∧ t.even = s.even ∧
    t.pktdef.hdr = s.pktdef.hdr ∧ t.pktdef.ofs = s.pktdef.ofs ∧ t.pktdef.var = s.pktdef.var ∧
    t.pktdef.lw = s.pktdef.lw := by
  rcases execInit_cases he with rfl | ⟨oc, -, -, -, rfl⟩
  · simp
  · exact ⟨fun b => by cases b <;> rfl, by simp⟩

/-- The three control commands leave every cell of both stores. -/
theorem exec_control_store {i : Instr} {s t : State}
    (hi : (∃ r, i = .csrRead r) ∨ (∃ r v, i = .csrWrite r v) ∨ ∃ ic opa, i = .init ic opa) (he : exec i s = .next t)
    (b : RingId) : (t.ring b).store = (s.ring b).store := by
  rcases hi with ⟨r, rfl⟩ | ⟨r, v, rfl⟩ | ⟨ic, opa, rfl⟩
  · rw [← execCsrRead_frame he]; cases b <;> rfl
  · rw [(execCsrWrite_frame he).1 b]
  · exact (execInit_frame he).1 b

/-- Settles O43: from the frame of each of the three commands, and `exec_inputs`. -/
theorem controlFrame : Obligations.ControlFrame := by
  intro s t i he
  refine ⟨fun hi => ⟨fun b a => by simp only [State.cell, exec_control_store hi he b], exec_inputs he⟩, ?_, ?_, ?_⟩
  · rintro r rfl
    exact execCsrRead_frame he
  · rintro r v rfl
    obtain ⟨hring, hregs⟩ := execCsrWrite_frame he
    exact ⟨hring .input, hring .output, hregs⟩
  · rintro ic opa rfl
    exact (execInit_frame he).2

/-! ### FIFO discipline of one ring (R77) -/

/-- From any ring that meets its invariant, a sequence that fits runs: what leaves the ring, followed by what is left in it, is
what it held, followed by what entered. -/
theorem runRingOps_fifo {depth : Nat} (ops : List RingOp) :
    ∀ r : Ring, r.Inv depth → fitsFrom r.cap.toNat ops r.occ.toNat = true →
      ∃ q removed pushed, runRingOps depth ops r = some (q, removed, pushed) ∧
        removed ++ q.held = r.held ++ pushed ∧ q.Inv depth := by
  induction ops with
  | nil => exact fun r hr _ => ⟨r, [], [], rfl, by simp, hr⟩
  | cons op ops ih =>
    intro r hr hfit
    cases op with
    | push d =>
      obtain ⟨hd, hrest⟩ : r.occ.toNat + d.length ≤ r.cap.toNat ∧
          fitsFrom r.cap.toNat ops (r.occ.toNat + d.length) = true := by simpa [fitsFrom] using hfit
      have hfree : d.length ≤ r.free := by unfold Ring.free; omega
      obtain ⟨r', hpush, hr', hcap, -, -, hocc, hheld, -⟩ := hr.push_spec hfree
      obtain ⟨q, removed, pushed, hrun, hfifo, hq⟩ := ih r' hr' (by rwa [hcap, hocc])
      refine ⟨q, removed, d ++ pushed, ?_, ?_, hq⟩
      · simp [runRingOps, Nat.not_lt.2 hfree, hpush, hrun]
      · rw [hfifo, hheld, List.append_assoc]
    | remove n =>
      obtain ⟨hn, hrest⟩ : n ≤ r.occ.toNat ∧ fitsFrom r.cap.toNat ops (r.occ.toNat - n) = true := by
        simpa [fitsFrom] using hfit
      obtain ⟨q, removed, pushed, hrun, hfifo, hq⟩ := ih (r.dropped n) (hr.dropped_inv hn)
        (by rwa [Ring.dropped_cap, Ring.dropped_occ_toNat])
      refine ⟨q, r.held.take n ++ removed, pushed, ?_, ?_, hq⟩
      · simp [runRingOps, Nat.not_lt.2 hn, hr.peek_eq hn, hr.drop_eq hn, hrun]
      · rw [List.append_assoc, hfifo, hr.dropped_held hn, ← List.append_assoc, List.take_append_drop]

/-- Settles O56: `runRingOps_fifo` from the initialised ring, which holds nothing; the count is the length of that equation. -/
theorem fifoIntegrity : Obligations.FifoIntegrity := by
  intro depth cap m ops hcap hwf hdepth hfit
  have hr : Ring.Inv depth { Ring.empty with store := m } :=
    { Ring.empty_inv depth with store_wf := hwf, store_in_depth := hdepth, held_written := by simp [Ring.empty] }
  obtain ⟨q, removed, pushed, hrun, hfifo, hq⟩ := runRingOps_fifo ops _ (hr.initialised hcap) hfit
  rw [Ring.initialised_held, List.nil_append] at hfifo
  refine ⟨q, removed, pushed, hrun, hfifo, ?_, hq⟩
  rw [← hfifo, List.length_append, Ring.held_length, Nat.add_comm]

/-! ### The rings of the machine as queues (R74, R77, R249) -/

theorem firstIndex_take_succ {t : Byte} {l : List Byte} {k : Nat} (h : firstIndex t l = some k) :
    l.take k ++ [t] = l.take (k + 1) := by
  rw [List.take_add_one, (firstIndex_eq_some.1 h).1, Option.toList_some]

theorem firstIndex_notMem_take {t : Byte} {l : List Byte} {k : Nat} (h : firstIndex t l = some k) : t ∉ l.take k := by
  intro hmem
  obtain ⟨j, hj⟩ := List.mem_iff_getElem?.1 hmem
  obtain ⟨hlt, hget⟩ : j < k ∧ l[j]? = some t := by simpa [List.getElem?_take] using hj
  exact (firstIndex_eq_some.1 h).2 j hlt hget

/-- An answer is the one output it adds to the trace. -/
theorem State.answer_dout {s s' : State} {st : Status} {res : Word} {dout : List Byte} {o : Output} {r : Response}
    (hs : s'.trace = s.trace) (ht : (s'.answer st res dout).trace = s.trace ++ [o]) (ho : o.response = some r) :
    r.dout = dout := by
  obtain rfl : _ = o := by simpa [hs] using ht
  obtain rfl := Option.some.inj ho
  rfl

/-- Settles O57: by `exec_ring` an instruction leaves the rings, takes from the front of one, or pushes to one. -/
theorem ringsAreQueues : Obligations.RingsAreQueues := by
  intro s t i hs he hi b
  have hkept (h : t.ring b = s.ring b) : s.held b ++ [] = [] ++ t.held b := by simp [State.held, h]
  rcases exec_ring hs he hi with hsame | ⟨c, n, res, p, hn, rfl, hcmd⟩ | ⟨c, d, q, hd, hq, hring, hcmd⟩
  · exact ⟨[], [], hkept (hsame b), by simp⟩
  · by_cases hb : b = c
    · subst hb
      refine ⟨(s.held b).take n, [], by simp [State.held, (hs.ring b).dropped_held hn], by simp, fun _ => ?_,
        fun o r _ ht ho => ?_⟩
      · rcases hcmd with ⟨k, rfl | ⟨rfl, rfl | rfl⟩, -⟩ | ⟨k, rfl⟩ | ⟨k, m, rfl, rfl, -⟩ <;> simp
      · have hr : r.dout = p := State.answer_dout (s.setRing_trace _ _) ht ho
        rcases hcmd with ⟨k, hk, rfl⟩ | ⟨k, rfl⟩ | ⟨k, m, rfl, rfl, rfl, rfl, hfirst⟩
        · refine ⟨fun _ _ => hr, ?_⟩
          rcases hk with rfl | ⟨-, rfl | rfl⟩ <;> simp
        · simp
        · rw [hr]
          exact ⟨by simp, fun _ _ => ⟨firstIndex_take_succ hfirst, firstIndex_notMem_take hfirst⟩⟩
    · exact ⟨[], [], hkept (by rw [State.answer_ring, s.setRing_ring_other c b _ hb]), by simp⟩
  · by_cases hb : b = c
    · subst hb
      obtain ⟨q', hq', -, -, -, -, -, hheld, -⟩ := (hs.ring b).push_spec hd
      obtain rfl : q = q' := by simpa [hq] using hq'
      exact ⟨[], d, by simp [State.held, hring, hheld], fun _ => hcmd, by simp⟩
    · exact ⟨[], [], hkept (by rw [hring, s.setRing_ring_other c b _ hb]), by simp⟩

/-! ### Every instruction completes (R65, R73, R76) -/

/-- A length field that lies inside the header is read (R33, R184). -/
theorem lenField_eq_some {h : List Byte} {o : Nat} {lw : LenWidth} (hin : o + lw.bytes ≤ h.length) :
    ∃ l, lenField h o lw = some l := by
  cases lw with
  | one =>
    have h0 : o < h.length := hin
    simp [lenField, h0]
  | twoLsbFirst =>
    have h1 : o + 1 < h.length := hin
    simp [lenField, h1, Nat.lt_of_succ_lt h1]
  | twoMsbFirst =>
    have h1 : o + 1 < h.length := hin
    simp [lenField, h1, Nat.lt_of_succ_lt h1]

theorem execInit_completes (ic : Half) (opa : Word) (s : State) : ∃ t, execInit ic opa s = .next t := by
  simp only [execInit]
  split <;> exact ⟨_, rfl⟩

theorem execCsrRead_completes (r : Byte) (s : State) : ∃ t, execCsrRead r s = .next t := by
  unfold execCsrRead
  split <;> exact ⟨_, rfl⟩

theorem execCsrWrite_completes (r : Byte) (v : Word) (s : State) : ∃ t, execCsrWrite r v s = .next t := by
  unfold execCsrWrite
  split
  · exact ⟨_, rfl⟩
  · split <;> exact ⟨_, rfl⟩

section
variable {s : State} (hs : s.Inv)
include hs

theorem execBufPush_completes (d : List Byte) : ∃ t, execBufPush d s = .next t := by
  unfold execBufPush
  split
  · exact ⟨_, rfl⟩
  · next hf =>
    obtain ⟨q, hq, -⟩ := hs.outRing.push_spec (Nat.le_of_not_lt hf)
    rw [hq]; exact ⟨_, rfl⟩

theorem execBufPop_completes (b : RingId) (n : Half) : ∃ t, execBufPop b n s = .next t := by
  unfold execBufPop
  split
  · exact ⟨_, rfl⟩
  · next hn => exact ⟨_, deliver_eq hs b (Nat.le_of_not_lt hn)⟩

theorem execBufPeek_completes (b : RingId) (n : Half) : ∃ t, execBufPeek b n s = .next t := by
  unfold execBufPeek
  split
  · exact ⟨_, rfl⟩
  · next hn => rw [(hs.ring b).peek_eq (Nat.le_of_not_lt hn)]; exact ⟨_, rfl⟩

theorem execBufDiscard_completes (b : RingId) (n : Half) : ∃ t, execBufDiscard b n s = .next t := by
  unfold execBufDiscard
  split
  · exact ⟨_, rfl⟩
  · next hn => rw [(hs.ring b).drop_eq (Nat.le_of_not_lt hn)]; exact ⟨_, rfl⟩

theorem execReadRaw_completes (n : Half) : ∃ t, execReadRaw n s = .next t := by
  unfold execReadRaw
  split
  · exact ⟨_, rfl⟩
  · next hn => exact ⟨_, deliver_eq hs .input (Nat.le_of_not_lt (not_or.1 hn).2)⟩

/-- The header is held when its length field is read, and a legal definition has the field inside it (R33, R183). -/
theorem readPktVar_completes (hvar : s.pktdef.var = true) (dst : Half) : ∃ t, readPktVar dst s = .next t := by
  simp only [readPktVar]
  split
  · exact ⟨_, rfl⟩
  · next hh =>
    have hhdr : s.pktdef.hdr.toNat ≤ s.inRing.occ.toNat := Nat.le_of_not_lt hh
    have hlegal := (PacketDef.legal_iff _).1 hs.pktdef_legal hvar
    obtain ⟨l, hl⟩ : ∃ l, lenField (s.inRing.held.take s.pktdef.hdr.toNat) s.pktdef.ofs.toNat s.pktdef.lw = some l :=
      lenField_eq_some (by simpa [hhdr] using hlegal)
    rw [hs.inRing.peek_eq hhdr]
    simp only [hl]
    exact ⟨_, readUnit_eq hs _ _⟩

theorem execReadPkt_completes (dst : Half) : ∃ t, execReadPkt dst s = .next t := by
  unfold execReadPkt
  split
  · split
    · next hvar => exact readPktVar_completes hs hvar dst
    · exact ⟨_, readUnit_eq hs _ _⟩
  · exact ⟨_, rfl⟩

/-- The terminator found is a held byte, so the line with it can be dropped (R186). -/
theorem execReadCmd_completes (dst : Half) : ∃ t, execReadCmd dst s = .next t := by
  unfold execReadCmd
  rw [hs.inRing.peek_eq (Nat.le_refl _)]
  dsimp only
  split
  · split <;> exact ⟨_, rfl⟩
  · next k hk =>
    obtain ⟨hlt, -⟩ := List.getElem?_eq_some_iff.1 (firstIndex_eq_some.1 hk).1
    split
    · exact ⟨_, rfl⟩
    · rw [hs.inRing.toBounded.drop_eq (n := k + 1) (by simpa using hlt)]
      exact ⟨_, rfl⟩

theorem execRx_completes (d : List Byte) : ∃ t, execRx d s = .next t := by
  unfold execRx
  split
  · exact ⟨_, rfl⟩
  split
  · exact ⟨_, rfl⟩
  split
  · exact ⟨_, rfl⟩
  · next hf =>
    obtain ⟨q, hq, -⟩ := hs.inRing.push_spec (Nat.le_of_not_lt hf)
    rw [hq]; exact ⟨_, rfl⟩

theorem exec_completes (i : Instr) : ∃ t, exec i s = .next t := by
  cases i with
  | init ic opa => exact execInit_completes ic opa s
  | csrRead r => exact execCsrRead_completes r s
  | csrWrite r v => exact execCsrWrite_completes r v s
  | bufPush d => exact execBufPush_completes hs d
  | bufPop b n => exact execBufPop_completes hs b n
  | bufPeek b n => exact execBufPeek_completes hs b n
  | bufDiscard b n => exact execBufDiscard_completes hs b n
  | readRaw n => exact execReadRaw_completes hs n
  | readPkt dst => exact execReadPkt_completes hs dst
  | readCmd dst => exact execReadCmd_completes hs dst
  | rx d => exact execRx_completes hs d

end

/-! ### Every step completes (R94, R96, R240, R254) -/

theorem decode_ne_notATransaction {x : Txn} (h : x.wellFormed = true) : decode x ≠ .error .notATransaction := by
  cases x with
  | consumer c =>
    rw [decode_consumer, if_pos ((FormatC.wellFormed_iff c).1 h)]
    intro hd
    rcases decodeCommand_error hd with hr | hr <;> cases hr
  | producer p =>
    have hlen : p.data.length = (immField p.ph).toNat := (FormatP.wellFormed_iff p).1 h
    rcases decode_producer_cases p with ⟨hne, -⟩ | ⟨-, -, hd⟩ | ⟨-, -, hd⟩
    · exact absurd hlen hne
    · simp [hd]
    · simp [hd]

theorem rejectTxn_completes {r : Reject} (h : r ≠ .notATransaction) (s : State) : ∃ t, rejectTxn r s = .next t := by
  cases r with
  | notATransaction => exact absurd rfl h
  | illegalOpcode => exact ⟨_, rfl⟩
  | reservedField => exact ⟨_, rfl⟩
  | malformedHeader => exact ⟨_, rfl⟩

/-- The agents' duty speaks of the two queues only. -/
theorem State.PendingWellFormed.congr {s t : State} (h : s.PendingWellFormed) (hc : t.commands = s.commands)
    (hp : t.spans = s.spans) : t.PendingWellFormed :=
  ⟨hc ▸ h.commands, hp ▸ h.spans⟩

/-- The transaction a turn takes has the length its word states, and so have those that stay. -/
theorem State.PendingWellFormed.of_turn {s : State} (h : s.PendingWellFormed) :
    (∀ x, s.turn.1 = some x → x.wellFormed = true) ∧ s.turn.2.PendingWellFormed := by
  rcases s.turn_cases with ⟨turns, c, cs, -, hq, hturn⟩ | ⟨turns, p, ps, -, hq, hturn⟩ | ⟨turns, hturn⟩ <;> rw [hturn]
  · have hall := h.commands
    rw [hq, List.forall_mem_cons] at hall
    exact ⟨by simpa [Txn.wellFormed] using hall.1, hall.2, h.spans⟩
  · have hall := h.spans
    rw [hq, List.forall_mem_cons] at hall
    exact ⟨by simpa [Txn.wellFormed] using hall.1, h.commands, hall.2⟩
  · exact ⟨by simp, h.commands, h.spans⟩

theorem step_completes {s : State} (hs : s.Inv) (hp : s.PendingWellFormed) : ∃ t, step s = .next t := by
  rcases hturn : s.turn with ⟨x, s'⟩
  cases x with
  | none => exact ⟨s', step_of_turn_none hturn⟩
  | some x =>
    have hx : x.wellFormed = true := hp.of_turn.1 x (by rw [hturn])
    cases hdec : decode x with
    | ok i =>
      rw [step_of_turn_ok hturn hdec]
      exact exec_completes (hs.of_turn hturn) i
    | error r =>
      rw [step_of_turn_error hturn hdec]
      exact rejectTxn_completes (fun h => decode_ne_notATransaction hx (h ▸ hdec)) s'

/-- A step takes from the queues at most the transaction of its turn. -/
theorem step_pendingWellFormed {s t : State} (hp : s.PendingWellFormed) (h : step s = .next t) : t.PendingWellFormed := by
  have hrest : s.turn.2.PendingWellFormed := hp.of_turn.2
  rcases step_cases h with hturn | ⟨x, s', i, hturn, -, he⟩ | ⟨c, s', hturn, rfl⟩ | ⟨p, s', hturn, -, rfl⟩ <;>
    rw [hturn] at hrest
  · exact hrest
  · obtain ⟨-, -, hc, hsp⟩ := exec_inputs he
    exact hrest.congr hc hsp
  · exact hrest.congr rfl rfl
  · exact hrest.congr rfl rfl

/-- Settles O52: the step completes (`step_completes`), and it keeps the invariant and the agents' duty. -/
theorem everyTransactionCompletes : Obligations.EveryTransactionCompletes := by
  intro s hs hp
  obtain ⟨t, ht⟩ := step_completes hs hp
  exact ⟨t, ht, step_inv hs ht, step_pendingWellFormed hp ht⟩

end Sys2Proof.Machine
end

section
/-! PROOFS. The statements of spec/30_encoding.md: decoding and encoding (O5 to O8), the words that select no row (O9 to O13),
and the consumer's response (O45, O46, O59). -/

namespace Sys2Proof

open Laws.RowMatch (cmdWord_and byte_and_ff mask_op_r mask_op_imm)

/-! ### The words of the rows (R92, R97) -/

theorem eq_cmdWord_iff {w : Word} {op r : Byte} {imm : Half} :
    w = cmdWord op r imm ↔ opField w = op ∧ rField w = r ∧ immField w = imm := by
  constructor
  · rintro rfl
    simp
  · rintro ⟨rfl, rfl, rfl⟩
    exact (cmdWord_fields w).symm

/-- A mask that keeps OP and R: the masked word is the match exactly when `w` is the row's word with its own IMM. -/
theorem eq_cmdWord_imm_iff (w : Word) (op r : Byte) :
    w = cmdWord op r (immField w) ↔ w &&& 0xFFFF0000 = cmdWord op r 0 := by
  have hmask : w &&& 0xFFFF0000 = cmdWord (opField w) (rField w) 0 := by
    simpa only [cmdWord_fields] using mask_op_r (opField w) (rField w) (immField w)
  rw [hmask]
  simp [eq_cmdWord_iff]

/-- A mask that keeps OP and IMM. -/
theorem eq_cmdWord_r_iff (w : Word) (op : Byte) (imm : Half) :
    w = cmdWord op (rField w) imm ↔ w &&& 0xFF00FFFF = cmdWord op 0 imm := by
  have hmask : w &&& 0xFF00FFFF = cmdWord (opField w) 0 (immField w) := by
    simpa only [cmdWord_fields] using mask_op_imm (opField w) (rField w) (immField w)
  rw [hmask]
  simp [eq_cmdWord_iff]

/-- R is the field that carries its own SEL exactly when R[7:1] is zero. -/
theorem eq_ringSel_selRing_iff (r : Byte) : r = ringSel (selRing r) ↔ r &&& 0xFE = 0 := by
  revert r; decide

/-- A mask that keeps OP and R[7:1]. -/
theorem eq_cmdWord_sel_iff (w : Word) (op : Byte) :
    w = cmdWord op (ringSel (selRing (rField w))) (immField w) ↔ w &&& 0xFFFE0000 = cmdWord op 0 0 := by
  have hmask : w &&& 0xFFFE0000 = cmdWord (opField w) (rField w &&& 0xFE) 0 := by
    conv_lhs => rw [← cmdWord_fields w, show (0xFFFE0000 : Word) = cmdWord 0xFF 0xFE 0 by decide, cmdWord_and, byte_and_ff]
    simp
  rw [hmask]
  simp [eq_cmdWord_iff, eq_ringSel_selRing_iff]

/-! ### The row a command selects -/

/-- A command stands in the row of an instruction, with that instruction's operands (R92, R97, R98): its word is the row's
word, and OPA or DIN is the operand where the row reads it. -/
def FormatC.Selects (c : FormatC) : Instr → Prop
  | .init ic opa => c.cmd = cmdWord 0x01 0 ic ∧ c.opa = opa
  | .csrRead r => c.cmd = cmdWord 0x02 r 0
  | .csrWrite r v => c.cmd = cmdWord 0x03 r 0 ∧ c.opa = v
  | .bufPush din => c.cmd = cmdWord 0x10 1 (immField c.cmd) ∧ c.din = din
  | .bufPop b n => c.cmd = cmdWord 0x11 (ringSel b) n
  | .bufPeek b n => c.cmd = cmdWord 0x12 (ringSel b) n
  | .bufDiscard b n => c.cmd = cmdWord 0x13 (ringSel b) n
  | .readRaw n => c.cmd = cmdWord 0x20 0 n
  | .readPkt dst => c.cmd = cmdWord 0x21 0 dst
  | .readCmd dst => c.cmd = cmdWord 0x22 0 dst
  | .rx _ => False

/-- The command word that a row's checks leave: its opcode, and SEL alone in R. -/
theorem eq_cmdWord_sel {w : Word} {op : Byte} (hop : opField w = op) (hr : ((rField w).extractLsb' 1 7 == 0) = true) :
    w = cmdWord op (ringSel (selRing (rField w))) (immField w) :=
  eq_cmdWord_iff.2 ⟨hop, (ringSel_selRing _ (eq_of_beq hr)).symm, rfl⟩

theorem selects_of_decodeCommand {c : FormatC} {i : Instr} (h : decodeCommand c = .ok i) : c.Selects i := by
  simp only [decodeCommand] at h
  split_ifs at h with h1 h2 h3 h10 h11 h12 h13 h20 h21 h22 <;> obtain ⟨hr, rfl⟩ := row_eq_ok.1 h
  · exact ⟨eq_cmdWord_iff.2 ⟨h1, eq_of_beq hr, rfl⟩, rfl⟩
  · exact eq_cmdWord_iff.2 ⟨h2, rfl, eq_of_beq hr⟩
  · exact ⟨eq_cmdWord_iff.2 ⟨h3, rfl, eq_of_beq hr⟩, rfl⟩
  · exact ⟨eq_cmdWord_iff.2 ⟨h10, eq_of_beq hr, rfl⟩, rfl⟩
  · exact eq_cmdWord_sel h11 hr
  · exact eq_cmdWord_sel h12 hr
  · exact eq_cmdWord_sel h13 hr
  · exact eq_cmdWord_iff.2 ⟨h20, eq_of_beq hr, rfl⟩
  · exact eq_cmdWord_iff.2 ⟨h21, eq_of_beq hr, rfl⟩
  · exact eq_cmdWord_iff.2 ⟨h22, eq_of_beq hr, rfl⟩

theorem decodeCommand_of_selects {c : FormatC} {i : Instr} (h : c.Selects i) : decodeCommand c = .ok i := by
  have hrow : ∀ {b : Bool} {j : Instr}, b = true → row b j = .ok j := fun hb => row_eq_ok.2 ⟨hb, rfl⟩
  cases i with
  | init | csrWrite => obtain ⟨hcmd, rfl⟩ := h; simp [decodeCommand, hcmd, hrow]
  | bufPush din =>
    obtain ⟨hcmd, rfl⟩ := h
    obtain ⟨hop, hr, -⟩ := eq_cmdWord_iff.1 hcmd
    simp [decodeCommand, hop, hr, hrow]
  | csrRead | bufPop | bufPeek | bufDiscard | readRaw | readPkt | readCmd =>
    simp [decodeCommand, show c.cmd = _ from h, hrow]
  | rx d => exact h.elim

/-- The consumer's half of R97: what decodes is what stands in a row and has the data length its word states. -/
theorem decode_consumer_eq_ok_iff {c : FormatC} {i : Instr} :
    decode (.consumer c) = .ok i ↔ c.din.length = dinLength c.cmd ∧ c.Selects i := by
  constructor
  · intro h
    obtain ⟨hlen, hdec⟩ := decode_consumer_ok h
    exact ⟨hlen, selects_of_decodeCommand hdec⟩
  · rintro ⟨hlen, hsel⟩
    rw [decode_consumer, if_pos hlen, decodeCommand_of_selects hsel]

theorem decode_consumer_of_wellFormed {c : FormatC} (h : c.wellFormed = true) (i : Instr) :
    decode (.consumer c) = .ok i ↔ c.Selects i := by
  rw [decode_consumer_eq_ok_iff, and_iff_right ((FormatC.wellFormed_iff c).1 h)]

/-- The producer's half of R97. -/
theorem decode_producer_of_wellFormed {p : FormatP} (h : p.wellFormed = true) :
    decode (.producer p) = .ok (.rx p.data) ↔ prefixField p.ph = 0x4000 := by
  rw [decode_producer, if_pos ((FormatP.wellFormed_iff p).1 h), decodeHeader]
  simp

/-! ### The round trips -/

theorem dinLength_bufPush (r : Byte) (imm : Half) : dinLength (cmdWord 0x10 r imm) = imm.toNat := by simp [dinLength]

/-- The length of a data list that fits the 16-bit count. -/
theorem toNat_ofNat_length {d : List Byte} (h : d.length ≤ 65535) : (BitVec.ofNat 16 d.length).toNat = d.length := by
  rw [BitVec.toNat_ofNat, Nat.mod_eq_of_lt (by omega)]

/-- Settles O6: the encoding stands in its own row, and its data list has the length its word states. -/
theorem decodeOfEncode : Obligations.DecodeOfEncode := by
  intro i hwf
  cases i with
  | rx d =>
    have hlen : d.length ≤ 65535 := of_decide_eq_true hwf
    have hcount : (immField (cmdWord 0x40 0 (BitVec.ofNat 16 d.length))).toNat = d.length := by
      rw [immField_cmdWord, toNat_ofNat_length hlen]
    exact (decode_producer_of_wellFormed ((FormatP.wellFormed_iff _).2 hcount.symm)).2
      ((prefixField_eq_iff _).2 ⟨opField_cmdWord _ _ _, rField_cmdWord _ _ _⟩)
  | bufPush d =>
    have hlen : d.length ≤ 65535 := of_decide_eq_true hwf
    exact decode_consumer_eq_ok_iff.2 ⟨((dinLength_bufPush _ _).trans (toNat_ofNat_length hlen)).symm, by simp, rfl⟩
  | init | csrWrite => exact decode_consumer_eq_ok_iff.2 ⟨by simp [dinLength], rfl, rfl⟩
  | csrRead | bufPop | bufPeek | bufDiscard | readRaw | readPkt | readCmd =>
    exact decode_consumer_eq_ok_iff.2 ⟨by simp [dinLength], rfl⟩

/-- A command in a row with the data length its word states is the encoding, but for an OPA that is not read. -/
theorem encode_of_selects {c : FormatC} {i : Instr} (hlen : c.din.length = dinLength c.cmd) (h : c.Selects i) :
    i.wellFormed = true ∧ ∃ e, encode i = .consumer e ∧ e.cmd = c.cmd ∧ e.din = c.din ∧
      (opField c.cmd = 0x01 ∨ opField c.cmd = 0x03 → e.opa = c.opa) := by
  have hnil (hop : opField c.cmd ≠ 0x10) : [] = c.din :=
    (List.eq_nil_of_length_eq_zero (hlen.trans (if_neg hop))).symm
  cases i with
  | init | csrWrite =>
    obtain ⟨hcmd, rfl⟩ := h
    exact ⟨rfl, _, rfl, hcmd.symm, hnil (by simp [hcmd]), fun _ => rfl⟩
  | bufPush din =>
    obtain ⟨hcmd, rfl⟩ := h
    have hcount : c.din.length = (immField c.cmd).toNat := by rw [hlen, hcmd, dinLength_bufPush, immField_cmdWord]
    have hfits : c.din.length ≤ 65535 := by have := (immField c.cmd).isLt; omega
    refine ⟨decide_eq_true hfits, _, rfl, ?_, rfl, by rw [hcmd]; simp⟩
    rw [hcount, BitVec.ofNat_toNat, BitVec.setWidth_eq]
    exact hcmd.symm
  | csrRead | bufPop | bufPeek | bufDiscard | readRaw | readPkt | readCmd =>
    have hcmd : c.cmd = _ := h
    exact ⟨rfl, _, rfl, hcmd.symm, hnil (by simp [hcmd]), by simp [hcmd]⟩
  | rx d => exact h.elim

/-- A well-formed header with the data length it states is the encoding of the span. -/
theorem encode_rx_of_prefixField {p : FormatP} (hlen : p.data.length = (immField p.ph).toNat)
    (hpre : prefixField p.ph = 0x4000) : (Instr.rx p.data).wellFormed = true ∧ encode (.rx p.data) = .producer p := by
  have hfits : p.data.length ≤ 65535 := by have := (immField p.ph).isLt; omega
  obtain ⟨hop, hr⟩ := (prefixField_eq_iff _).1 hpre
  have hph : cmdWord 0x40 0 (BitVec.ofNat 16 p.data.length) = p.ph := by
    rw [hlen, BitVec.ofNat_toNat, BitVec.setWidth_eq, ← hop, ← hr, cmdWord_fields]
  exact ⟨decide_eq_true hfits, by rw [encode, hph]⟩

/-- Settles O7: on each port, what decodes is the encoding of its instruction (`encode_of_selects`,
`encode_rx_of_prefixField`). -/
theorem encodeOfDecode : Obligations.EncodeOfDecode := by
  intro x i h
  cases x with
  | consumer c =>
    obtain ⟨hlen, hsel⟩ := decode_consumer_eq_ok_iff.1 h
    obtain ⟨hwf, e, he, hsame⟩ := encode_of_selects hlen hsel
    exact ⟨hwf, by rw [he]; exact hsame⟩
  | producer p =>
    rcases decode_producer_cases p with ⟨-, h'⟩ | ⟨-, -, h'⟩ | ⟨hlen, hpre, h'⟩ <;> rw [h'] at h <;> cases h
    obtain ⟨hwf, he⟩ := encode_rx_of_prefixField hlen hpre
    exact ⟨hwf, by rw [he]⟩

/-! ### Match and mask (R97) -/

/-- Settles O8: a row's mask keeps the fields that its word fixes (`eq_cmdWord_imm_iff`, `eq_cmdWord_r_iff`,
`eq_cmdWord_sel_iff`), and the other fields are the row's operands. -/
theorem rowSelectedByMatchAndMask : Obligations.RowSelectedByMatchAndMask := by
  refine ⟨fun c hwf => ?_, fun p hwf => ?_⟩
  · have hdec := decode_consumer_of_wellFormed hwf
    exact ⟨(hdec _).trans ((and_iff_left rfl).trans (eq_cmdWord_imm_iff _ 0x01 0)),
      (hdec _).trans (eq_cmdWord_r_iff _ 0x02 0),
      (hdec _).trans ((and_iff_left rfl).trans (eq_cmdWord_r_iff _ 0x03 0)),
      (hdec _).trans ((and_iff_left rfl).trans (eq_cmdWord_imm_iff _ 0x10 1)),
      (hdec _).trans (eq_cmdWord_sel_iff _ 0x11), (hdec _).trans (eq_cmdWord_sel_iff _ 0x12),
      (hdec _).trans (eq_cmdWord_sel_iff _ 0x13), (hdec _).trans (eq_cmdWord_imm_iff _ 0x20 0),
      (hdec _).trans (eq_cmdWord_imm_iff _ 0x21 0), (hdec _).trans (eq_cmdWord_imm_iff _ 0x22 0)⟩
  · have hword : prefixField p.ph = 0x4000 ↔ p.ph = cmdWord 0x40 0 (immField p.ph) := by
      rw [prefixField_eq_iff, eq_cmdWord_iff, and_iff_left rfl]
    exact (decode_producer_of_wellFormed hwf).trans (hword.trans (eq_cmdWord_imm_iff _ 0x40 0))

/-- Settles O5, by running the decoder on the eleven words. -/
theorem sampleWordsDecode : Obligations.SampleWordsDecode := by
  unfold Obligations.SampleWordsDecode
  decide

/-! ### Commands that stand in no row (R98, R99) -/

/-- The opcode of a command that stands in a row is one of the ten, and the reserved fields of that opcode are zero: R for
INIT, READ_RAW, READ_PKT and READ_CMD, IMM for CSR_READ and CSR_WRITE, R[7:1] for the commands with a SEL, which is 1 for
BUF_PUSH. -/
theorem FormatC.Selects.fields {c : FormatC} {i : Instr} (h : c.Selects i) :
    opField c.cmd ∈ ([0x01, 0x02, 0x03, 0x10, 0x11, 0x12, 0x13, 0x20, 0x21, 0x22] : List Byte) ∧
    (opField c.cmd ∈ ([0x01, 0x20, 0x21, 0x22] : List Byte) → rField c.cmd = 0) ∧
    (opField c.cmd ∈ ([0x02, 0x03] : List Byte) → immField c.cmd = 0) ∧
    (opField c.cmd ∈ ([0x11, 0x12, 0x13] : List Byte) → (rField c.cmd).extractLsb' 1 7 = 0) ∧
    (opField c.cmd = 0x10 → rField c.cmd = 1) := by
  cases i with
  | init | csrWrite =>
    obtain ⟨hcmd, -⟩ := h
    simp [hcmd]
  | bufPush din =>
    obtain ⟨hcmd, -⟩ := h
    obtain ⟨hop, hr, -⟩ := eq_cmdWord_iff.1 hcmd
    simp [hop, hr]
  | csrRead | bufPop | bufPeek | bufDiscard | readRaw | readPkt | readCmd => simp [show c.cmd = _ from h]
  | rx d => exact h.elim

/-- R[7:1] and R[0] as the bits of the command word. -/
theorem rField_reserved (w : Word) : (rField w).extractLsb' 1 7 = w.extractLsb' 17 7 := by
  apply BitVec.eq_of_getLsbD_eq
  intro i hi
  simp [rField, hi, show 1 + i < 8 by omega, show 16 + (1 + i) = 17 + i by omega]

theorem rField_sel (w : Word) : (rField w).getLsbD 0 = w.getLsbD 16 := by
  simp [rField]

end Sys2Proof

namespace Sys2Proof.Machine

/-- A command of the right data length that stands in no row is answered ILLEGAL, whichever of R98 and R99 it breaks. -/
theorem step_of_selects_none {s : State} {turns : List Agent} {c : FormatC} {cs : List FormatC}
    (hs : s.schedule = .consumer :: turns) (hc : s.commands = c :: cs) (hwf : c.wellFormed = true)
    (hno : ∀ i, ¬ c.Selects i) :
    step s = .next ({ s with schedule := turns, commands := cs }.answer .illegal 0 []) := by
  have hturn := State.turn_of_consumer hs hc
  have hdec : decode (.consumer c) = decodeCommand c := by
    rw [decode_consumer, if_pos ((FormatC.wellFormed_iff c).1 hwf)]
  cases h : decodeCommand c with
  | ok i => exact absurd (selects_of_decodeCommand h) (hno i)
  | error r =>
    rw [step_of_turn_error hturn (hdec.trans h)]
    rcases decodeCommand_error h with rfl | rfl <;> rfl

/-- Settles O9: every row has one of the ten opcodes. -/
theorem unknownOpcodeIsIllegal : Obligations.UnknownOpcodeIsIllegal :=
  fun _ _ _ _ hs hc hwf hop => step_of_selects_none hs hc hwf fun _ hsel => hop hsel.fields.1

/-- Settles O10: every row has the reserved fields of its opcode zero, and BUF_PUSH's has SEL = 1. -/
theorem reservedFieldIsIllegal : Obligations.ReservedFieldIsIllegal := by
  intro s turns c cs hs hc hwf hbad
  refine step_of_selects_none hs hc hwf fun i hsel => ?_
  obtain ⟨-, hr, himm, hring, hpush⟩ := hsel.fields
  rcases hbad with ⟨hop, hne⟩ | ⟨hop, hne⟩ | ⟨hop, hne⟩ | ⟨hop, hne⟩
  · exact hne (hr hop)
  · exact hne (himm hop)
  · exact hne (by rw [← rField_reserved, hring hop])
  · rw [← rField_reserved, ← rField_sel, hpush hop] at hne
    revert hne
    decide

/-! ### The producer's header, the operand word and the data length (R94, R96, R100, R101) -/

/-- Settles O11: the header selects no row, and `rejectTxn` sets PERR alone. -/
theorem malformedHeaderOnlySetsPerr : Obligations.MalformedHeaderOnlySetsPerr := by
  intro s turns p ps hs hp hwf hpre
  have hdec : decode (.producer p) = .error .malformedHeader := by
    rw [decode_producer, if_pos ((FormatP.wellFormed_iff p).1 hwf)]
    exact if_neg hpre
  rw [step_of_turn_error (State.turn_of_producer hs hp) hdec]
  rfl

/-- The decoder looks at OPA for INIT and CSR_WRITE alone. -/
theorem decode_opa {c : FormatC} (opa : Word) (h1 : opField c.cmd ≠ 0x01) (h3 : opField c.cmd ≠ 0x03) :
    decode (.consumer { c with opa := opa }) = decode (.consumer c) := by
  simp only [decode_consumer, decodeCommand, if_neg h1, if_neg h3]

/-- Settles O12: the two commands decode alike (`decode_opa`), and the turn takes either off the queue. -/
theorem operandWordIgnored : Obligations.OperandWordIgnored := by
  intro s turns c cs opa hs h1 h3
  have hturn (k : FormatC) : State.turn { s with commands := k :: cs } =
      (some (.consumer k), { s with schedule := turns, commands := cs }) := State.turn_of_consumer hs rfl
  simp only [step, hturn, decode_opa opa h1 h3]

/-- Settles O13: on either port the decoder asks for the stated length first. -/
theorem wrongLengthIsRefused : Obligations.WrongLengthIsRefused := by
  refine ⟨fun s turns c cs hs hc hlen => ?_, fun s turns p ps hs hp hlen => ?_⟩
  · have hdec : decode (.consumer c) = .error .notATransaction := (decode_consumer c).trans (if_neg hlen)
    rw [step_of_turn_error (State.turn_of_consumer hs hc) hdec, rejectTxn_notATransaction]
  · have hdec : decode (.producer p) = .error .notATransaction := (decode_producer p).trans (if_neg hlen)
    rw [step_of_turn_error (State.turn_of_producer hs hp) hdec, rejectTxn_notATransaction]

/-! ### The status of a response (R90, R102, R103) -/

/-- What `exec_answer` says, on the port: one response, no event, and each code from the commands of its row. -/
theorem exec_response {i : Instr} {s t : State} (he : exec i s = .next t) (hi : ∀ d, i ≠ .rx d) :
    ∃ r : Response, t.trace = s.trace ++ [{ response := some r, events := [] }] ∧
      r.st.toNat ≤ 5 ∧ (r.st ≠ 0 → r.dout = [] ∧ { t with trace := s.trace } = s) ∧ (r.st ≠ 0 → r.st ≠ 3 → r.res = 0) ∧
      (r.st = 1 → ∃ b n, i = .bufPop b n ∨ i = .bufPeek b n ∨ i = .bufDiscard b n) ∧
      (r.st = 2 → ∃ d, i = .bufPush d) ∧
      (r.st = 3 → ∃ n, i = .readPkt n ∨ i = .readCmd n) ∧
      (r.st = 4 → (∃ ic opa, i = .init ic opa) ∨ ∃ q v, i = .csrWrite q v) ∧
      (r.st = 5 → (∃ q, i = .csrRead q) ∨ ∃ q v, i = .csrWrite q v) := by
  obtain ⟨s', st, res, dout, rfl, htrace, herr, hres, h1, h2, h3, h4, h5⟩ := exec_answer he hi
  have code {st' : Status} (h : st.code = st'.code) : st = st' := Status.code_injective h
  refine ⟨⟨st.code, res, dout⟩, by simp [htrace], st.code_le, fun h => ?_,
    fun h0 h3 => hres (fun e => h0 (congrArg Status.code e)) (fun e => h3 (congrArg Status.code e)),
    fun h => h1 (code h), fun h => h2 (code h), fun h => h3 (code h), fun h => h4 (code h), fun h => h5 (code h)⟩
  obtain ⟨rfl, rfl⟩ := herr fun e => h (congrArg Status.code e)
  exact ⟨rfl, rfl⟩

theorem execRx_trace {d : List Byte} {s t : State} (h : execRx d s = .next t) :
    ∃ evs, t.trace = s.trace ++ [{ response := none, events := evs }] := by
  rcases execRx_cases h with ⟨-, rfl⟩ | ⟨-, -, rfl⟩ | ⟨q, -, -, -, -, rfl⟩ <;> exact ⟨_, rfl⟩

/-- Settles O45: RX by `execRx_trace`, every other instruction by `exec_response`. -/
theorem statusPerCommand : Obligations.StatusPerCommand := by
  intro i s t he
  have hresp (hi : ∀ d, i ≠ .rx d) := exec_response he hi
  cases i with
  | rx d => exact execRx_trace he
  | init | csrRead | csrWrite | bufPush | bufPop | bufPeek | bufDiscard | readRaw | readPkt | readCmd =>
    obtain ⟨r, htrace, -, -, -, hst⟩ := hresp (by simp)
    exact ⟨r, htrace, hst⟩

/-- The opcode of a transaction that decodes is its instruction's, as `encode` writes it. -/
theorem opField_of_decode {c : FormatC} {i : Instr} (h : decode (.consumer c) = .ok i) :
    opField c.cmd = opField (encode i).word := by
  obtain ⟨hlen, hsel⟩ := decode_consumer_eq_ok_iff.1 h
  obtain ⟨-, e, he, hcmd, -⟩ := encode_of_selects hlen hsel
  rw [he, ← hcmd]
  rfl

/-- Settles O59: a command that decodes responds as `exec_response` says, its opcode being its instruction's; any other
command that completes is answered ILLEGAL. -/
theorem statusCodesReturned : Obligations.StatusCodesReturned := by
  refine ⟨⟨rfl, rfl, rfl, rfl, rfl, rfl⟩, fun s s' t c hturn h => ?_⟩
  rcases step_cases h with hidle | ⟨x, s'', i, hexec, hdec, he⟩ | ⟨c', s'', hreject, rfl⟩ | ⟨p, s'', hprod, -, -⟩
  · simp [hidle] at hturn
  · obtain ⟨rfl, rfl⟩ : x = .consumer c ∧ s'' = s' := by simpa [hexec] using hturn
    have hrx : ∀ d, i ≠ .rx d := by
      rintro d rfl
      obtain ⟨p, hp⟩ := producer_of_decode_rx hdec
      cases hp
    obtain ⟨r, htrace, hle, herr, hres, h1, h2, h3, h4, -⟩ := exec_response he hrx
    rw [opField_of_decode hdec]
    refine ⟨r, htrace, hle, herr, hres, fun h => ?_, fun h => ?_, fun h => ?_, fun h => ?_⟩
    · obtain ⟨b, n, rfl | rfl | rfl⟩ := h1 h <;> simp [encode, Txn.word]
    · obtain ⟨d, rfl⟩ := h2 h
      simp [encode, Txn.word]
    · obtain ⟨n, rfl | rfl⟩ := h3 h <;> simp [encode, Txn.word]
    · obtain ⟨ic, opa, rfl⟩ | ⟨q, v, rfl⟩ := h4 h <;> simp [encode, Txn.word]
  · obtain ⟨-, rfl⟩ : c' = c ∧ s'' = s' := by simpa [hreject] using hturn
    exact ⟨⟨5, 0, []⟩, rfl, by decide, fun _ => ⟨rfl, rfl⟩, fun _ _ => rfl, by simp⟩
  · simp [hprod] at hturn

/-! ### The length of DOUT (R103, R104, R108) -/

/-- The response that an answer put in the trace is the one it was given. -/
theorem State.answer_response {s s' : State} {st : Status} {res : Word} {dout : List Byte} {r : Response}
    (hs : s'.trace = s.trace) (ht : (s'.answer st res dout).trace = s.trace ++ [{ response := some r, events := [] }]) :
    r = ⟨st.code, res, dout⟩ := by
  simpa [hs, eq_comm] using ht

/-- A peek of a 16-bit count answers RES[15:0] bytes where RES is the count. -/
theorem Ring.peek_length_zext32 {depth : Nat} {q : Ring} {n : Half} {p : List Byte} (h : q.peek depth n.toNat = .ok p) :
    p.length = ((zext32 n).extractLsb' 0 16).toNat := by
  rw [Ring.peek_length h, zext32, ← BitVec.setWidth_eq_extractLsb' (by decide), BitVec.setWidth_setWidth_of_le _ (by decide),
    BitVec.setWidth_eq]

/-- RES[15:0] of a line's answer is the line's length; bit 16 says that a line was found (R108). -/
theorem low_lineRes {k : Nat} (hk : k < 65536) : ((0x00010000 ||| BitVec.ofNat 32 k : Word).extractLsb' 0 16).toNat = k := by
  have hhigh : (0x00010000 : Word).extractLsb' 0 16 = 0#16 := by decide
  rw [BitVec.extractLsb'_or, hhigh, BitVec.zero_or, ← BitVec.setWidth_eq_extractLsb' (by decide),
    BitVec.setWidth_ofNat_of_le (by decide), BitVec.toNat_ofNat, Nat.mod_eq_of_lt hk]

/-- READ_PKT's packet, whose total fits 32 bits. -/
theorem readUnit_dout {total : Nat} {dst : Half} {s t : State} {r : Response} (htotal : total ≤ 65790)
    (h : readUnit total dst s = .next t) (ht : t.trace = s.trace ++ [{ response := some r, events := [] }]) :
    r.dout.length = if r.st ≠ 0 then 0 else r.res.toNat := by
  rcases readUnit_cases h with rfl | rfl | ⟨p, q, -, hp, -, rfl⟩
  · obtain rfl := State.answer_response rfl ht
    rfl
  · obtain rfl := State.answer_response rfl ht
    rfl
  · obtain rfl := State.answer_response (s.setRing_trace _ _) ht
    exact (Ring.peek_length hp).trans (Nat.mod_eq_of_lt (show total < 2 ^ 32 by omega)).symm

/-- READ_CMD's line ends before the terminator found, which is a held byte. -/
theorem execReadCmd_dout {dst : Half} {s t : State} {r : Response} (h : execReadCmd dst s = .next t)
    (ht : t.trace = s.trace ++ [{ response := some r, events := [] }]) :
    r.dout.length = if r.st ≠ 0 then 0 else (r.res.extractLsb' 0 16).toNat := by
  rcases execReadCmd_cases h with rfl | ⟨res, rfl⟩ | ⟨bytes, k, q, hb, hk, -, rfl⟩
  · obtain rfl := State.answer_response rfl ht
    rfl
  · obtain rfl := State.answer_response rfl ht
    rfl
  · obtain rfl := State.answer_response (s.setRing_trace _ _) ht
    obtain ⟨hlt, -⟩ := List.getElem?_eq_some_iff.1 (firstIndex_eq_some.1 hk).1
    have hocc : bytes.length < 65536 := Ring.peek_length hb ▸ s.inRing.occ.isLt
    exact (List.length_take_of_le (Nat.le_of_lt hlt)).trans (low_lineRes (hlt.trans hocc)).symm

/-- Settles O46: RingPeek answers as many bytes as it was asked for (`Ring.peek_length`), and RES is that number. -/
theorem responseDataLength : Obligations.ResponseDataLength := by
  intro i s t r _ he ht
  cases i with
  | init =>
    rcases execInit_cases he with rfl | ⟨_, -, -, -, rfl⟩ <;> obtain rfl := State.answer_response rfl ht <;> rfl
  | csrRead => rcases execCsrRead_cases he with rfl | ⟨_, -, rfl⟩ <;> obtain rfl := State.answer_response rfl ht <;> rfl
  | csrWrite =>
    rcases execCsrWrite_cases he with rfl | rfl | ⟨_, _, -, hw, rfl⟩
    · obtain rfl := State.answer_response rfl ht
      rfl
    · obtain rfl := State.answer_response rfl ht
      rfl
    · obtain ⟨-, -, -, -, -, htrace⟩ := writeCsr_frame hw
      obtain rfl := State.answer_response htrace ht
      rfl
  | bufPush =>
    rcases execBufPush_cases he with ⟨-, rfl⟩ | ⟨_, -, -, rfl⟩ <;> obtain rfl := State.answer_response rfl ht <;> rfl
  | bufPop b n =>
    rcases execBufPop_cases he with rfl | ⟨p, q, -, hp, -, rfl⟩
    · obtain rfl := State.answer_response rfl ht
      rfl
    · obtain rfl := State.answer_response (s.setRing_trace _ _) ht
      rw [BitVec.ofNat_toNat]
      exact Ring.peek_length_zext32 hp
  | bufPeek b n =>
    rcases execBufPeek_cases he with rfl | ⟨p, -, hp, rfl⟩ <;> obtain rfl := State.answer_response rfl ht
    · rfl
    · exact Ring.peek_length_zext32 hp
  | bufDiscard =>
    rcases execBufDiscard_cases he with rfl | ⟨_, -, -, rfl⟩
    · obtain rfl := State.answer_response rfl ht
      rfl
    · obtain rfl := State.answer_response (s.setRing_trace _ _) ht
      rfl
  | readRaw n =>
    rcases execReadRaw_cases he with rfl | ⟨p, q, -, -, hp, -, rfl⟩
    · obtain rfl := State.answer_response rfl ht
      rfl
    · obtain rfl := State.answer_response (s.setRing_trace _ _) ht
      rw [BitVec.ofNat_toNat]
      exact Ring.peek_length_zext32 hp
  | readPkt dst =>
    rcases execReadPkt_cases he with rfl | ⟨total, htotal, hu⟩
    · obtain rfl := State.answer_response rfl ht
      rfl
    · exact readUnit_dout htotal hu ht
  | readCmd dst => exact execReadCmd_dout he ht
  | rx d =>
    obtain ⟨evs, hnone⟩ := execRx_trace he
    simp [hnone] at ht

end Sys2Proof.Machine
end

section
/-! PROOFS. The statements of spec/40_ring.md: what BUF_PUSH, BUF_POP, BUF_PEEK and BUF_DISCARD do when the count fits (O14,
O16, O17, O18) and when it does not (O15, O19). -/

namespace Sys2Proof.Machine

/-! ### A count that does not fit (R131 to R134) -/

theorem execBufPush_of_free_lt {s : State} {d : List Byte} (h : s.outRing.free < d.length) :
    execBufPush d s = .next (s.answer .insuffSpace 0 []) := if_pos h

theorem execBufPop_of_occ_lt {s : State} {b : RingId} {n : Half} (h : (s.ring b).occ.toNat < n.toNat) :
    execBufPop b n s = .next (s.answer .insuffData 0 []) := if_pos h

theorem execBufPeek_of_occ_lt {s : State} {b : RingId} {n : Half} (h : (s.ring b).occ.toNat < n.toNat) :
    execBufPeek b n s = .next (s.answer .insuffData 0 []) := if_pos h

theorem execBufDiscard_of_occ_lt {s : State} {b : RingId} {n : Half} (h : (s.ring b).occ.toNat < n.toNat) :
    execBufDiscard b n s = .next (s.answer .insuffData 0 []) := if_pos h

/-- Settles O15: the count test is BUF_PUSH's first, and its answer leaves the state. -/
theorem bufPushWithoutSpace : Obligations.BufPushWithoutSpace := fun _ _ h => execBufPush_of_free_lt h

/-- Settles O19: the count test is the first of each of the three, and its answer leaves the state. -/
theorem removalsNeedTheBytes : Obligations.RemovalsNeedTheBytes := fun _ _ _ h =>
  ⟨execBufPop_of_occ_lt h, execBufPeek_of_occ_lt h, execBufDiscard_of_occ_lt h⟩

/-! ### A count that fits (R131 to R134) -/

/-- BUF_PUSH of bytes that fit is RingPush on OUT (R131). -/
theorem execBufPush_of_push {s : State} {d : List Byte} {q : Ring} (h : d.length ≤ s.outRing.free)
    (hq : s.outRing.push (s.depth .output) d = .ok q) :
    execBufPush d s = .next ((s.setRing .output q).answer .ok (BitVec.ofNat 32 d.length) []) := by
  rw [execBufPush, if_neg (Nat.not_lt.2 h), hq]
  rfl

/-- Settles O14: the new OUT is the ring that RingPush answers, of which `Ring.Inv.push_spec` says all the rest. -/
theorem bufPushAppends : Obligations.BufPushAppends := by
  intro s d hs hd
  obtain ⟨q, hq, -, hcap, hrd, hwr, hocc, hheld, hnew, hold⟩ := hs.outRing.push_spec hd
  exact ⟨q, execBufPush_of_push hd hq, hcap, hrd, hocc, hwr, hnew, hold, hheld⟩

section
variable {s : State} (hs : s.Inv) {b : RingId} {n : Half} (hn : n.toNat ≤ (s.ring b).occ.toNat)
include hs hn

/-- BUF_POP of held bytes delivers them (R132). -/
theorem execBufPop_of_le_occ :
    execBufPop b n s =
      .next ((s.setRing b ((s.ring b).dropped n.toNat)).answer .ok (zext32 n) ((s.held b).take n.toNat)) := by
  rw [execBufPop, if_neg (Nat.not_lt.2 hn), deliver_eq hs b hn, BitVec.ofNat_toNat]
  rfl

/-- BUF_PEEK of held bytes is RingPeek, answered (R133). -/
theorem execBufPeek_of_le_occ :
    execBufPeek b n s = .next (s.answer .ok (zext32 n) ((s.held b).take n.toNat)) := by
  rw [execBufPeek, if_neg (Nat.not_lt.2 hn), (hs.ring b).peek_eq hn]
  rfl

/-- BUF_DISCARD of held bytes is RingDrop (R134). -/
theorem execBufDiscard_of_le_occ :
    execBufDiscard b n s = .next ((s.setRing b ((s.ring b).dropped n.toNat)).answer .ok (zext32 n) []) := by
  rw [execBufDiscard, if_neg (Nat.not_lt.2 hn), (hs.ring b).drop_eq hn]
  rfl

end

/-- Settles O17: `execBufPeek_of_le_occ`, whose next state differs from `s` by its answer only. -/
theorem bufPeekReturnsOldest : Obligations.BufPeekReturnsOldest := fun _ _ _ hs hn => execBufPeek_of_le_occ hs hn

/-! ### The ring after a removal (R64) -/

/-- RD after a removal of held bytes. With a capacity of 0 there are none, so RD stays 0, as R65 says. -/
theorem Ring.Bounded.dropped_rd_toNat {depth : Nat} {r : Ring} (h : r.Bounded depth) {n : Nat} (hn : n ≤ r.occ.toNat) :
    (r.dropped n).rd.toNat = r.readCell n := by
  rcases Nat.eq_zero_or_pos n with rfl | hpos
  · rw [h.dropped_zero, h.readCell_zero]
  · exact r.dropped_rd_toNat (h.cap_ne_zero_of_pos hpos hn) n

/-- RingDrop moves RD and OCC alone, and the bytes behind the removed ones stay held in order. -/
theorem Ring.Inv.dropped_spec {depth : Nat} {r : Ring} (h : r.Inv depth) {n : Nat} (hn : n ≤ r.occ.toNat) :
    (r.dropped n).store = r.store ∧ (r.dropped n).cap = r.cap ∧ (r.dropped n).wr = r.wr ∧
      (r.dropped n).rd.toNat = r.readCell n ∧ (r.dropped n).occ.toNat = r.occ.toNat - n ∧
      (r.dropped n).held = r.held.drop n :=
  ⟨rfl, rfl, rfl, h.toBounded.dropped_rd_toNat hn, r.dropped_occ_toNat n, h.dropped_held hn⟩

/-- Settles O16: BUF_POP leaves the ring `Ring.dropped`, of which `Ring.Inv.dropped_spec` says all. -/
theorem bufPopReturnsOldest : Obligations.BufPopReturnsOldest := fun _ b _ hs hn =>
  ⟨_, execBufPop_of_le_occ hs hn, (hs.ring b).dropped_spec hn⟩

/-- Settles O18: BUF_DISCARD leaves the same ring as BUF_POP and answers no data. -/
theorem bufDiscardRemovesOldest : Obligations.BufDiscardRemovesOldest := fun _ b _ hs hn =>
  ⟨_, execBufDiscard_of_le_occ hs hn, (hs.ring b).dropped_spec hn⟩

end Sys2Proof.Machine
end

section
/-! PROOFS. The statements of spec/41_ingestion.md: what RX does on a faulted link (O25), when it overflows (O24) and when it
pushes (O23); what it does not read (O26); and which event an instruction emits (O49). -/

namespace Sys2Proof.Machine

/-! ### RX, case by case (R160, R162, R163) -/

theorem execRx_of_ovf {s : State} (d : List Byte) (ho : s.ovf = true) : execRx d s = .next (s.produced []) := if_pos ho

theorem execRx_of_free_lt {s : State} {d : List Byte} (ho : s.ovf = false) (hd : d ≠ []) (hf : s.inRing.free < d.length) :
    execRx d s = .next ((s.setOvf true).produced (s.emit .ovf)) := by
  simp [execRx, ho, hd, hf]

theorem execRx_of_push {s : State} {d : List Byte} {q : Ring} (ho : s.ovf = false) (hd : d ≠ [])
    (hf : d.length ≤ s.inRing.free) (hq : s.inRing.push (s.depth .input) d = .ok q) :
    execRx d s = .next ((s.setRing .input q).produced (dispatchEvent s d)) := by
  simp [execRx, ho, hd, Nat.not_lt.2 hf, hq]

/-- Settles O25: the test of OVF is RX's first. -/
theorem faultedLinkDropsEverySpan : Obligations.FaultedLinkDropsEverySpan := fun _ d ho => execRx_of_ovf d ho

/-- Settles O24: the overflow by `execRx_of_free_lt`, and that nothing else sets OVF by `execRx_cases`. -/
theorem overflowDetector : Obligations.OverflowDetector := by
  refine ⟨fun s d ho hd hf => execRx_of_free_lt ho hd hf, fun s t d ho hd he => ?_⟩
  rcases execRx_cases he with ⟨hdrop, -⟩ | ⟨-, hf, rfl⟩ | ⟨q, -, -, hf, -, rfl⟩
  · simp [ho, hd] at hdrop
  · exact iff_of_true rfl hf
  · exact iff_of_false (by simp [ho]) (Nat.not_lt.2 hf)

/-! ### The event of a push (R161, R164, R245) -/

theorem State.mem_emit {s : State} {e x : Event} : x ∈ s.emit e ↔ x = e ∧ s.even.getLsbD e.id = true := by
  unfold State.emit
  split <;> simp [*]

theorem dispatchEvent_transparent {s : State} (d : List Byte) (hm : s.mode = .transparent) :
    dispatchEvent s d = s.emit .raw := by
  simp [dispatchEvent, hm]

theorem dispatchEvent_binary {s : State} (d : List Byte) (hm : s.mode = .binary) : dispatchEvent s d = s.emit .pkt := by
  simp [dispatchEvent, hm]

theorem dispatchEvent_command {s : State} (d : List Byte) (hm : s.mode = .command) :
    dispatchEvent s d = if s.term ∈ d ∧ s.even.getLsbD 2 = true then [.cmd] else [] := by
  simp [dispatchEvent, hm, State.emit, Event.id, ite_and]

/-- Settles O23: the new IN is the ring that RingPush answers, of which `Ring.Inv.push_spec` says all the rest. -/
theorem rxPushesAndDispatches : Obligations.RxPushesAndDispatches := by
  intro s d hs ho hd hf
  obtain ⟨q, hq, -, hcap, hrd, hwr, hocc, hheld, hnew, hold⟩ := hs.inRing.push_spec hf
  refine ⟨q, (execRx_of_push ho hd hf hq).trans ?_, hcap, hrd, hocc, hwr, hnew, hold, hheld⟩
  cases hm : s.mode with
  | transparent => rw [dispatchEvent_transparent d hm]; rfl
  | binary => rw [dispatchEvent_binary d hm]; rfl
  | command => rw [dispatchEvent_command d hm]

/-! ### What RX does not read (R166) -/

/-- Settles O26: RX's tests, its push and its event are the same on both states, so the two runs take the same branch. -/
theorem rxReadsNoDefinition : Obligations.RxReadsNoDefinition := by
  intro s d def' pay at'
  simp only [exec, execRx, State.depth]
  split
  · rfl
  split
  · rfl
  split
  · rfl
  cases s.inRing.push s.params.inDepth.toNat d <;> rfl

/-! ### Which event an instruction emits (R161, R164, R244) -/

theorem mem_dispatchEvent {s : State} {d : List Byte} {e : Event} :
    e ∈ dispatchEvent s d ↔
      e = .raw ∧ s.mode = .transparent ∧ s.even.getLsbD 0 = true ∨
      e = .pkt ∧ s.mode = .binary ∧ s.even.getLsbD 1 = true ∨
      e = .cmd ∧ s.mode = .command ∧ s.term ∈ d ∧ s.even.getLsbD 2 = true := by
  cases hm : s.mode with
  | transparent => simp [dispatchEvent_transparent d hm, State.mem_emit, Event.id]
  | binary => simp [dispatchEvent_binary d hm, State.mem_emit, Event.id]
  | command => simp [dispatchEvent_command d hm, and_comm]

/-- The events of the one output an instruction appends: none; or EV_OVF's on an overflow; or the mode's after a push. -/
theorem exec_events {i : Instr} {s t : State} {o : Output} (he : exec i s = .next t) (ht : t.trace = s.trace ++ [o]) :
    o.events = [] ∧ (∀ d, i = .rx d → s.ovf = true ∨ d = []) ∨
    (∃ d, i = .rx d ∧ s.ovf = false ∧ s.inRing.free < d.length ∧ o.events = s.emit .ovf) ∨
    (∃ d, i = .rx d ∧ s.ovf = false ∧ d ≠ [] ∧ d.length ≤ s.inRing.free ∧ o.events = dispatchEvent s d) := by
  by_cases hi : ∃ d, i = .rx d
  · obtain ⟨d, rfl⟩ := hi
    rcases execRx_cases he with ⟨hdrop, rfl⟩ | ⟨ho, hf, rfl⟩ | ⟨q, ho, hd, hf, -, rfl⟩
    · obtain rfl : _ = o := by simpa using ht
      exact .inl ⟨rfl, fun _ h => Instr.rx.inj h ▸ hdrop⟩
    · obtain rfl : _ = o := by simpa using ht
      exact .inr (.inl ⟨d, rfl, ho, hf, rfl⟩)
    · obtain rfl : _ = o := by simpa using ht
      exact .inr (.inr ⟨d, rfl, ho, hd, hf, rfl⟩)
  · obtain ⟨r, hr, -⟩ := exec_response he (not_exists.1 hi)
    obtain rfl : _ = o := by simpa [hr] using ht
    exact .inl ⟨rfl, fun d h => absurd ⟨d, h⟩ hi⟩

/-- Settles O49: the cases of `exec_events`, in each of which the conditions of the other cases' events fail. -/
theorem eventsEmittedExactly : Obligations.EventsEmittedExactly := by
  intro s t i o he ht free pushes
  rcases exec_events he ht with ⟨hev, hdrop⟩ | ⟨d, rfl, ho, hf, hev⟩ | ⟨d, rfl, ho, hd, hf, hev⟩
  · have hpush (d) : ¬ pushes d := fun ⟨hi, ho, hd, _⟩ => (hdrop d hi).elim (by simp [ho]) hd
    have hover (d) : i = .rx d → s.ovf = false → ¬ free < d.length := fun hi ho =>
      (hdrop d hi).elim (by simp [ho]) (by rintro rfl; simp)
    simp +contextual [hev, hpush, hover]
  · have hover : free < d.length := hf
    have hpush (d') : ¬ pushes d' := fun ⟨hi, _, _, hle⟩ => Nat.not_lt.2 hle (Instr.rx.inj hi ▸ hover)
    simp [hev, State.mem_emit, State.emit_length_le, Event.id, hpush, ho, hover]
  · have hfit : d.length ≤ free := hf
    have hpush (d') : pushes d' ↔ d = d' := ⟨fun h => Instr.rx.inj h.1, by rintro rfl; exact ⟨rfl, ho, hd, hfit⟩⟩
    simp [hev, mem_dispatchEvent, dispatchEvent_enabled.1, hpush, hfit]

end Sys2Proof.Machine
end

section
/-! PROOFS. The statements of spec/42_framing.md: what READ_RAW (O27), READ_PKT (O28, O29, O30) and READ_CMD (O31) do, that
none of them reads MODE (O32), and that a failed read changes nothing and may be repeated (O33). -/

namespace Sys2Proof.Machine

/-! ### READ_RAW (R180) -/

theorem execReadRaw_of_nothing {s : State} {n : Half} (h : n = 0 ∨ s.inRing.occ.toNat < n.toNat) :
    execReadRaw n s = .next (s.answer .ok 0 []) :=
  if_pos (h.imp_left (congrArg BitVec.toNat))

/-- READ_RAW of held bytes delivers them. -/
theorem execReadRaw_of_le_occ {s : State} {n : Half} (hs : s.Inv) (h0 : n ≠ 0) (hn : n.toNat ≤ s.inRing.occ.toNat) :
    execReadRaw n s =
      .next ((s.setRing .input (s.inRing.dropped n.toNat)).answer .ok (zext32 n) (s.inRing.held.take n.toNat)) := by
  have hsome : ¬ (n.toNat = 0 ∨ s.inRing.occ.toNat < n.toNat) :=
    not_or.2 ⟨fun h => h0 (BitVec.eq_of_toNat_eq h), Nat.not_lt.2 hn⟩
  rw [execReadRaw, if_neg hsome, deliver_eq hs .input hn, BitVec.ofNat_toNat]
  rfl

/-- Settles O27: the two branches of READ_RAW's one test. -/
theorem readRawAllOrNothing : Obligations.ReadRawAllOrNothing := fun _ _ =>
  ⟨execReadRaw_of_nothing, execReadRaw_of_le_occ⟩

/-! ### READ_PKT without a definition and under a fixed one (R181, R182) -/

theorem execReadPkt_of_unconfigured {s : State} (dst : Half) (h : s.pktdef.cfg = false) :
    execReadPkt dst s = .next (s.answer .ok 0 []) := by
  simp [execReadPkt, h]

theorem execReadPkt_of_fixed {s : State} (dst : Half) (hcfg : s.pktdef.cfg = true) (hvar : s.pktdef.var = false) :
    execReadPkt dst s = readUnit (s.pktdef.hdr.toNat + s.pktpay.toNat) dst s := by
  simp [execReadPkt, readPktFixed, hcfg, hvar]

theorem execReadPkt_of_variable {s : State} (dst : Half) (hcfg : s.pktdef.cfg = true) (hvar : s.pktdef.var = true) :
    execReadPkt dst s = readPktVar dst s := by
  simp [execReadPkt, hcfg, hvar]

/-- Settles O28: the test of CFG is READ_PKT's first. -/
theorem readPktUnconfigured : Obligations.ReadPktUnconfigured := fun _ dst h => execReadPkt_of_unconfigured dst h

/-- Settles O29: a fixed definition's total is HDR + PAY, and `readUnit_eq` says what follows once the total is known. -/
theorem readPktFixedDefinition : Obligations.ReadPktFixedDefinition := fun _ dst hs hcfg hvar =>
  (execReadPkt_of_fixed dst hcfg hvar).trans (readUnit_eq hs _ dst)

/-! ### READ_PKT under a variable definition (R183, R184) -/

/-- The payload length that the bytes `l` hold at offset `o`, a byte out of range counted 0 (R184). -/
def lengthAt (l : List Byte) (o : Nat) (lw : LenWidth) : Nat :=
  match lw with
  | .one => (l.getD o 0).toNat
  | .twoLsbFirst => (l.getD o 0).toNat + 256 * (l.getD (o + 1) 0).toNat
  | .twoMsbFirst => 256 * (l.getD o 0).toNat + (l.getD (o + 1) 0).toNat

/-- A length field that lies inside the first `h` bytes of `l` is read from these bytes as it stands in `l`. -/
theorem lenField_take {l : List Byte} {h o : Nat} {lw : LenWidth} (hin : o + lw.bytes ≤ h) (hlen : h ≤ l.length) :
    lenField (l.take h) o lw = some (lengthAt l o lw) := by
  have hget : ∀ i, i < h → (l.take h)[i]? = some (l.getD i 0) := fun i hi => by
    rw [List.getElem?_take_of_lt hi, List.getD_eq_getElem _ _ (hi.trans_le hlen), List.getElem?_eq_getElem]
  cases lw with
  | one => simp [lenField, lengthAt, hget o hin]
  | twoLsbFirst => simp [lenField, lengthAt, hget (o + 1) hin, hget o (Nat.lt_of_succ_lt hin)]
  | twoMsbFirst => simp [lenField, lengthAt, hget (o + 1) hin, hget o (Nat.lt_of_succ_lt hin)]

theorem readPktVar_of_occ_lt {s : State} (dst : Half) (h : s.inRing.occ.toNat < s.pktdef.hdr.toNat) :
    readPktVar dst s = .next (s.answer .ok 0 []) := if_pos h

/-- Once the header is held, the total is known: a legal definition has the length field inside the header (R33). -/
theorem readPktVar_of_le_occ {s : State} (dst : Half) (hs : s.Inv) (hvar : s.pktdef.var = true)
    (hh : s.pktdef.hdr.toNat ≤ s.inRing.occ.toNat) :
    readPktVar dst s =
      readUnit (s.pktdef.hdr.toNat + lengthAt s.inRing.held s.pktdef.ofs.toNat s.pktdef.lw) dst s := by
  have hfield : lenField (s.inRing.held.take s.pktdef.hdr.toNat) s.pktdef.ofs.toNat s.pktdef.lw =
      some (lengthAt s.inRing.held s.pktdef.ofs.toNat s.pktdef.lw) :=
    lenField_take ((PacketDef.legal_iff _).1 hs.pktdef_legal hvar) (by simpa using hh)
  simp only [readPktVar, if_neg (Nat.not_lt.2 hh), hs.inRing.peek_eq hh, hfield]

/-- Settles O30: before the header is held nothing is read; after, the total is `lengthAt`'s and `readUnit_eq` says the
rest. -/
theorem readPktVariableDefinition : Obligations.ReadPktVariableDefinition := by
  intro s dst hs hcfg hvar h o byte total
  have htotal : s.pktdef.hdr.toNat + lengthAt s.inRing.held s.pktdef.ofs.toNat s.pktdef.lw = total := rfl
  refine (execReadPkt_of_variable dst hcfg hvar).trans ?_
  by_cases hh : s.inRing.occ.toNat < h
  · rw [if_pos hh, readPktVar_of_occ_lt dst hh]
  · rw [if_neg hh, readPktVar_of_le_occ dst hs hvar (Nat.le_of_not_lt hh), readUnit_eq hs, htotal]

/-! ### READ_CMD (R186) -/

/-- A peek of all that is held answers it. -/
theorem Ring.Inv.peek_occ {depth : Nat} {r : Ring} (h : r.Inv depth) : r.peek depth r.occ.toNat = .ok r.held := by
  rw [h.peek_eq (Nat.le_refl _), List.take_of_length_le (by simp)]

/-- RES of a line: FOUND in bit 16 and the length below it. -/
theorem lineRes_eq_ofNat {k : Nat} (hk : k < 65536) :
    (0x00010000 ||| BitVec.ofNat 32 k : Word) = BitVec.ofNat 32 (0x00010000 + k) := by
  have hor : 0x00010000 + k = 0x00010000 ||| k := Nat.two_pow_add_eq_or_of_lt (i := 16) hk 1
  rw [hor, BitVec.ofNat_or]
  rfl

section
variable {s : State} (hs : s.Inv) (dst : Half)
include hs

theorem execReadCmd_of_firstIndex_none (h : firstIndex s.term s.inRing.held = none) :
    execReadCmd dst s = .next
      (if s.inRing.occ = s.inRing.cap ∧ s.inRing.cap ≠ 0 then s.answer .oversize (zext32 s.inRing.occ) []
      else s.answer .ok 0 []) := by
  have hcap : 0 < s.inRing.cap.toNat ↔ s.inRing.cap ≠ 0 := by
    rw [Nat.pos_iff_ne_zero, ne_eq, ne_eq, ← BitVec.toNat_inj]
    rfl
  simp only [execReadCmd, hs.inRing.peek_occ, h, hcap, finish_eq, ← apply_ite]

theorem execReadCmd_of_firstIndex_some {k : Nat} (h : firstIndex s.term s.inRing.held = some k) :
    execReadCmd dst s = .next
      (if dst.toNat < k then s.answer .oversize (BitVec.ofNat 32 k) []
      else (s.setRing .input (s.inRing.dropped (k + 1))).answer .ok (BitVec.ofNat 32 (0x00010000 + k))
        (s.inRing.held.take k)) := by
  obtain ⟨hlt, -⟩ := List.getElem?_eq_some_iff.1 (firstIndex_eq_some.1 h).1
  have hk : k + 1 ≤ s.inRing.occ.toNat := by simpa using hlt
  have hres : k < 65536 := Nat.lt_trans hk s.inRing.occ.isLt
  simp only [execReadCmd, hs.inRing.peek_occ, h, hs.inRing.drop_eq hk, lineRes_eq_ofNat hres, finish_eq, ← apply_ite]

end

/-- Settles O31: `firstIndex` answers none exactly when no terminator is held, and otherwise the first one's index. -/
theorem readCmdTakesFirstLine : Obligations.ReadCmdTakesFirstLine := fun _ dst hs =>
  ⟨fun h => execReadCmd_of_firstIndex_none hs dst (firstIndex_eq_none.2 h),
    fun _ hk hfirst => execReadCmd_of_firstIndex_some hs dst (firstIndex_eq_some.2 ⟨hk, hfirst⟩)⟩

/-! ### What the read commands read (R187) -/

/-- The three read commands. -/
def IsRead (i : Instr) : Prop := ∃ n, i = .readRaw n ∨ i = .readPkt n ∨ i = .readCmd n

/-- Two states agree on all that a read command reads: IN and its depth, the definition and TERM. -/
structure State.SameForReads (s t : State) : Prop where
  depth : t.depth .input = s.depth .input
  inRing : t.inRing = s.inRing
  pktdef : t.pktdef = s.pktdef
  pktpay : t.pktpay = s.pktpay
  term : t.term = s.term

/-- Two results on states `s` and `t` are the same: one fault, or one new IN and one output. -/
def SameResult (s t : State) (x y : Result) : Prop :=
  (∃ f, x = .fault f ∧ y = .fault f) ∨
    ∃ q o, x = .next ((s.setRing .input q).record o) ∧ y = .next ((t.setRing .input q).record o)

theorem SameResult.fault (s t : State) (f : Fault) : SameResult s t (.fault f) (.fault f) := .inl ⟨f, rfl, rfl⟩

theorem SameResult.answer (s t : State) (q : Ring) (st : Status) (res : Word) (dout : List Byte) :
    SameResult s t (finish (s.setRing .input q) st res dout) (finish (t.setRing .input q) st res dout) :=
  .inr ⟨q, _, rfl, rfl⟩

section
variable {s t : State} (h : s.SameForReads t)
include h

/-- An answer that leaves IN. -/
theorem finish_sameResult (st : Status) (res : Word) (dout : List Byte) :
    SameResult s t (finish s st res dout) (finish t st res dout) := by
  have hs : s.setRing .input s.inRing = s := s.setRing_ring .input
  have ht : t.setRing .input s.inRing = t := h.inRing ▸ t.setRing_ring .input
  simpa only [hs, ht] using SameResult.answer s t s.inRing st res dout

theorem deliver_sameResult (n : Nat) : SameResult s t (deliver s .input n) (deliver t .input n) := by
  simp only [deliver, State.pop, State.ring_input, h.inRing, h.depth]
  cases s.inRing.peek (s.depth .input) n with
  | error f => exact .fault s t f
  | ok p =>
    cases s.inRing.drop n with
    | error f => exact .fault s t f
    | ok q => exact .answer s t q _ _ _

theorem readUnit_sameResult (total : Nat) (dst : Half) :
    SameResult s t (readUnit total dst s) (readUnit total dst t) := by
  simp only [readUnit, h.inRing]
  split
  · exact finish_sameResult h _ _ _
  split
  · exact finish_sameResult h _ _ _
  · exact deliver_sameResult h total

theorem execReadRaw_sameResult (n : Half) : SameResult s t (execReadRaw n s) (execReadRaw n t) := by
  simp only [execReadRaw, h.inRing]
  split
  · exact finish_sameResult h _ _ _
  · exact deliver_sameResult h n.toNat

theorem readPktVar_sameResult (dst : Half) : SameResult s t (readPktVar dst s) (readPktVar dst t) := by
  simp only [readPktVar, h.inRing, h.depth, h.pktdef]
  split
  · exact finish_sameResult h _ _ _
  split
  · exact .fault s t _
  split
  · exact .fault s t _
  · exact readUnit_sameResult h _ dst

theorem execReadPkt_sameResult (dst : Half) : SameResult s t (execReadPkt dst s) (execReadPkt dst t) := by
  simp only [execReadPkt, readPktFixed, h.pktdef, h.pktpay]
  split
  · split
    · exact readPktVar_sameResult h dst
    · exact readUnit_sameResult h _ dst
  · exact finish_sameResult h _ _ _

theorem execReadCmd_sameResult (dst : Half) : SameResult s t (execReadCmd dst s) (execReadCmd dst t) := by
  simp only [execReadCmd, h.inRing, h.depth, h.term]
  split
  · exact .fault s t _
  split
  · split <;> exact finish_sameResult h _ _ _
  split
  · exact finish_sameResult h _ _ _
  split
  · exact .fault s t _
  · exact .answer s t _ _ _ _

/-- A read command does the same on two states that agree on what it reads. -/
theorem exec_sameResult {i : Instr} (hi : IsRead i) : SameResult s t (exec i s) (exec i t) := by
  obtain ⟨n, rfl | rfl | rfl⟩ := hi
  · exact execReadRaw_sameResult h n
  · exact execReadPkt_sameResult h n
  · exact execReadCmd_sameResult h n

end

/-- Settles O32: a state under another mode agrees on what the three commands read, and neither a new IN nor an output
touches MODE. -/
theorem readsIgnoreMode : Obligations.ReadsIgnoreMode := by
  intro s m n i hi
  have hsame : s.SameForReads { s with mode := m } := ⟨rfl, rfl, rfl, rfl, rfl⟩
  rcases exec_sameResult hsame ⟨n, hi⟩ with ⟨f, hx, hy⟩ | ⟨q, o, hx, hy⟩ <;> rw [hx, hy] <;> rfl

/-! ### A failed read (R188) -/

/-- A response of a failed read: OK (0) with RES 0, OVERSIZE (3) or ILLEGAL (5). -/
def Response.Failed (r : Response) : Prop := r.st = 0 ∧ r.res = 0 ∨ r.st = 3 ∨ r.st = 5

/-- Issued again on the state that its own answer left, a read command that changed nothing gives that answer again. -/
theorem exec_read_again {i : Instr} {s : State} {o : Output} (hi : IsRead i) (he : exec i s = .next (s.record o)) :
    exec i (s.record o) = .next ((s.record o).record o) := by
  have hsame : s.SameForReads (s.record o) := ⟨rfl, rfl, rfl, rfl, rfl⟩
  rcases exec_sameResult hsame hi with ⟨f, hx, -⟩ | ⟨q, o', hx, hy⟩
  · simp [he] at hx
  · have hnext : s.record o = (s.setRing .input q).record o' := Host.Outcome.next.inj (he.symm.trans hx)
    have hq : s.inRing = q := congrArg State.inRing hnext
    have ho : o = o' := by simpa using congrArg State.trace hnext
    rw [hy, ← hq, ← ho]
    rfl

/-- A packet total that reads as 0 on the port is 0 (R80). -/
theorem eq_zero_of_ofNat_eq_zero {n : Nat} (hn : n ≤ 65790) (h : (BitVec.ofNat 32 n : Word) = 0) : n = 0 := by
  have hmod : n % 2 ^ 32 = 0 := by simpa using congrArg BitVec.toNat h
  omega

/-- A line's RES has FOUND set. -/
theorem lineRes_ne_zero (k : Nat) : (0x00010000 ||| BitVec.ofNat 32 k : Word) ≠ 0 := by
  intro h
  exact absurd (BitVec.or_eq_zero_iff.1 h).1 (by decide)

section
variable {s t : State} {r : Response} (ht : t.trace = s.trace ++ [{ response := some r, events := [] }])
include ht

/-- READ_PKT answers with the number of bytes taken, so with RES 0 it took none. -/
theorem readUnit_of_res_zero {total : Nat} {dst : Half} (htotal : total ≤ 65790) (h : readUnit total dst s = .next t)
    (h0 : r.st = 0 ∧ r.res = 0) : t = s.answer .ok 0 [] := by
  rcases readUnit_cases h with rfl | rfl | ⟨p, q, -, hp, hq, rfl⟩
  · obtain rfl := State.answer_response rfl ht
    simp at h0
  · rfl
  · obtain rfl := State.answer_response (s.setRing_trace _ _) ht
    obtain rfl := eq_zero_of_ofNat_eq_zero htotal h0.2
    rw [Ring.peek_zero] at hp
    rw [Ring.drop_zero] at hq
    cases hp
    cases hq
    rfl

/-- A read command that answers OK with RES 0 took nothing: READ_RAW takes more than 0 bytes or none, and READ_CMD answers a
line with FOUND set. -/
theorem exec_read_of_res_zero {i : Instr} (hi : IsRead i) (he : exec i s = .next t) (h0 : r.st = 0 ∧ r.res = 0) :
    t = s.answer .ok 0 [] := by
  obtain ⟨n, rfl | rfl | rfl⟩ := hi
  · rcases execReadRaw_cases he with rfl | ⟨p, q, hpos, -, -, -, rfl⟩
    · rfl
    · obtain rfl := State.answer_response (s.setRing_trace _ _) ht
      exact absurd (eq_zero_of_ofNat_eq_zero (by omega) h0.2) hpos.ne'
  · rcases execReadPkt_cases he with rfl | ⟨total, htotal, hu⟩
    · rfl
    · exact readUnit_of_res_zero ht htotal hu h0
  · rcases execReadCmd_cases he with rfl | ⟨res, rfl⟩ | ⟨bytes, k, q, -, -, -, rfl⟩
    · rfl
    · obtain rfl := State.answer_response rfl ht
      simp at h0
    · obtain rfl := State.answer_response (s.setRing_trace _ _) ht
      exact absurd h0.2 (lineRes_ne_zero k)

/-- A failed read changes nothing: with RES 0 by `exec_read_of_res_zero`, with another status than OK as every command. -/
theorem exec_read_failed {i : Instr} (hi : IsRead i) (he : exec i s = .next t) (hr : r.Failed) :
    ∃ st res, t = s.answer st res [] := by
  by_cases h0 : r.st = 0
  · have hres : r.st = 0 ∧ r.res = 0 := by simpa [Response.Failed, h0] using hr
    exact ⟨_, _, exec_read_of_res_zero ht hi he hres⟩
  · have hrx : ∀ d, i ≠ .rx d := by obtain ⟨n, rfl | rfl | rfl⟩ := hi <;> simp
    obtain ⟨s', st, res, dout, rfl, htrace, hfail, -⟩ := exec_answer he hrx
    obtain rfl := State.answer_response htrace ht
    obtain ⟨rfl, rfl⟩ := hfail fun h => h0 (congrArg Status.code h)
    exact ⟨st, res, rfl⟩

theorem State.record_of_answer {st : Status} {res : Word} (h : t = s.answer st res []) :
    r.dout = [] ∧ t = s.record { response := some r, events := [] } := by
  subst h
  obtain rfl := State.answer_response rfl ht
  exact ⟨rfl, rfl⟩

end

/-- The opcodes 0x20 to 0x22 are those of the read commands. -/
theorem isRead_of_decode {c : FormatC} {i : Instr} (hop : opField c.cmd ∈ ([0x20, 0x21, 0x22] : List Byte))
    (h : decode (.consumer c) = .ok i) : IsRead i := by
  rw [opField_of_decode h] at hop
  cases i with
  | readRaw n => exact ⟨n, .inl rfl⟩
  | readPkt n => exact ⟨n, .inr (.inl rfl)⟩
  | readCmd n => exact ⟨n, .inr (.inr rfl)⟩
  | init | csrRead | csrWrite | bufPush | bufPop | bufPeek | bufDiscard | rx => simp [encode, Txn.word] at hop

/-- A command that selects no row and is answered is answered ILLEGAL, in whatever state it is issued. -/
theorem rejectTxn_of_decode_error {c : FormatC} {e : Reject} (h : decode (.consumer c) = .error e) {s t : State}
    (hnext : rejectTxn e s = .next t) (s' : State) : rejectTxn e s' = .next (s'.answer .illegal 0 []) := by
  rw [decode_consumer] at h
  split at h
  · rcases decodeCommand_error h with rfl | rfl <;> rfl
  · cases h
    cases hnext

/-- Settles O33: a command that selects no row is answered ILLEGAL again; one that does is a read command, which changed
nothing (`exec_read_failed`) and so does the same again (`exec_read_again`). -/
theorem failedReadIsIdempotent : Obligations.FailedReadIsIdempotent := by
  intro s s' t c r hturn hop hstep ht hr
  have hagain : (t.issueNext (.consumer c)).turn = (some (.consumer c), t) := t.turn_issueNext _
  cases hdec : decode (.consumer c) with
  | error e =>
    rw [step_of_turn_error hturn hdec] at hstep
    have hreject := rejectTxn_of_decode_error hdec hstep
    obtain rfl : s'.answer .illegal 0 [] = t := Host.Outcome.next.inj ((hreject s').symm.trans hstep)
    obtain rfl := State.answer_response rfl ht
    exact ⟨rfl, rfl, (step_of_turn_error hagain hdec).trans (hreject _)⟩
  | ok i =>
    rw [step_of_turn_ok hturn hdec] at hstep
    have hi : IsRead i := isRead_of_decode hop hdec
    obtain ⟨st, res, hanswer⟩ := exec_read_failed ht hi hstep hr
    obtain ⟨hdout, rfl⟩ := State.record_of_answer ht hanswer
    exact ⟨hdout, rfl, (step_of_turn_ok hagain hdec).trans (exec_read_again hi hstep)⟩

end Sys2Proof.Machine
end

section
/-! PROOFS. The statements of spec/43_control.md: INIT (O34, O35), what CSR_READ answers (O36), what CSR_WRITE stores and
rejects (O38, O39, O41), and that nothing but CSR_READ and CSR_WRITE of ATEN reads or writes ATEN (O44). -/

namespace Sys2Proof.Machine

/-! ### INIT (R210) -/

theorem execInit_of_le_depth {s : State} {ic : Half} {opa : Word} (h0 : opa.extractLsb' 16 16 = 0)
    (hic : ic.toNat ≤ s.depth .input) (hoc : (opa.extractLsb' 0 16).toNat ≤ s.depth .output) :
    execInit ic opa s = .next ((s.initialised ic (opa.extractLsb' 0 16)).answer .ok 0 []) :=
  if_neg (by simp only [not_or, not_not, Nat.not_lt]; exact ⟨h0, hic, hoc⟩)

theorem execInit_of_outOfRange {s : State} {ic : Half} {opa : Word}
    (h : opa.extractLsb' 16 16 ≠ 0 ∨ s.depth .input < ic.toNat ∨ s.depth .output < (opa.extractLsb' 0 16).toNat) :
    execInit ic opa s = .next (s.answer .param 0 []) := if_pos h

/-- Settles O34: INIT's one test passes, and `State.initialised` is the state that R210 lists. -/
theorem initReinitialises : Obligations.InitReinitialises := fun _ _ _ h0 hic hoc => execInit_of_le_depth h0 hic hoc

/-- Settles O35: INIT's one test fails before anything is written. -/
theorem initOutOfRange : Obligations.InitOutOfRange := fun _ _ _ h => execInit_of_outOfRange h

/-! ### What the registers read as (R30 to R40, R211) -/

theorem exec_csrRead_num (s : State) (c : Csr) {v : Word} (hv : s.csrValue c = v) :
    exec (.csrRead c.num) s = .next (s.answer .ok v []) := by
  simp only [exec, execCsrRead, csrOf_num, hv, finish_eq]

theorem SerialMode.bits_word (m : SerialMode) :
    m.bits.setWidth 32 = match m with | .transparent => (0 : Word) | .command => 1 | .binary => 2 := by
  cases m <;> rfl

theorem LenWidth.bits_eq (w : LenWidth) :
    w.bits = match w with | .one => 0 | .twoLsbFirst => 1 | .twoMsbFirst => 2 := by
  cases w <;> rfl

theorem ofBool_word (b : Bool) : (BitVec.ofBool b).setWidth 32 = if b then (1 : Word) else 0 := by
  cases b <;> rfl

theorem State.statusWord_eq (s : State) : s.statusWord = (if s.perr then 2 else 0) + (if s.ovf then 1 else 0) := by
  unfold State.statusWord
  cases s.perr <;> cases s.ovf <;> rfl

/-- Settles O36: each number is its register's (`Csr.num`), whose value is its field zero-extended; PKTDEF's fields are those
of `PacketDef.word_fields`. -/
theorem csrReadValues : Obligations.CsrReadValues := by
  intro s
  obtain ⟨hhdr, hofs, hvar, hlw, hres, hcfg⟩ := s.pktdef.word_fields
  exact ⟨exec_csrRead_num s .mode s.mode.bits_word, exec_csrRead_num s .aten (ofBool_word s.aten),
    ⟨s.pktdef.word, exec_csrRead_num s .pktdef rfl, hhdr, hofs, hvar, hlw.trans s.pktdef.lw.bits_eq, hres, hcfg⟩,
    exec_csrRead_num s .pktpay rfl, exec_csrRead_num s .term rfl, exec_csrRead_num s .even rfl,
    exec_csrRead_num s .status s.statusWord_eq,
    exec_csrRead_num s .incap rfl, exec_csrRead_num s .inocc rfl, exec_csrRead_num s .inrd rfl, exec_csrRead_num s .inwr rfl,
    exec_csrRead_num s .outcap rfl, exec_csrRead_num s .outocc rfl, exec_csrRead_num s .outrd rfl,
    exec_csrRead_num s .outwr rfl, exec_csrRead_num s .indepth rfl, exec_csrRead_num s .outdepth rfl⟩

/-! ### What a write stores and what it rejects (R30, R31, R34 to R36, R212, R213) -/

/-- The bits of a word from `k` up are 0 exactly when its value is below 2 ^ k. -/
theorem extractLsb'_high_eq_zero_iff {w : Nat} (v : BitVec w) {k n : Nat} (h : k + n = w) :
    v.extractLsb' k n = 0 ↔ v.toNat < 2 ^ k := by
  have hhigh : v.toNat / 2 ^ k < 2 ^ n := Nat.div_lt_of_lt_mul (by rw [← Nat.pow_add, h]; exact v.isLt)
  rw [← BitVec.toNat_inj, BitVec.extractLsb'_toNat, Nat.shiftRight_eq_div_pow, Nat.mod_eq_of_lt hhigh]
  exact Nat.div_eq_zero_iff_lt (Nat.two_pow_pos k)

theorem writeCsr_mode_bits (s : State) (m : SerialMode) : writeCsr s .mode (m.bits.setWidth 32) = .ok (s.setMode m) := by
  cases m <;> rfl

/-- MODE rejects 3, which names no mode, and every value with a reserved bit set (R30). -/
theorem writeCsr_mode_of_three_le (s : State) {v : Word} (h : 3 ≤ v.toNat) : writeCsr s .mode v = .error .param := by
  by_cases h4 : v.toNat < 4
  · obtain rfl : v = 3 := BitVec.eq_of_toNat_eq (Nat.le_antisymm (Nat.le_of_lt_succ h4) h)
    rfl
  · exact if_neg (mt (extractLsb'_high_eq_zero_iff v rfl).1 h4)

theorem writeCsr_aten (s : State) (v : Word) :
    writeCsr s .aten v = if v.toNat < 2 ^ 1 then .ok (s.setAten (v.getLsbD 0)) else .error .param :=
  if_congr (extractLsb'_high_eq_zero_iff v rfl) rfl rfl

theorem writeCsr_pktpay (s : State) (v : Word) :
    writeCsr s .pktpay v = if v.toNat < 2 ^ 16 then .ok (s.setPktpay (v.extractLsb' 0 16)) else .error .param :=
  if_congr (extractLsb'_high_eq_zero_iff v rfl) rfl rfl

theorem writeCsr_term (s : State) (v : Word) :
    writeCsr s .term v = if v.toNat < 2 ^ 8 then .ok (s.setTerm (v.extractLsb' 0 8)) else .error .param :=
  if_congr (extractLsb'_high_eq_zero_iff v rfl) rfl rfl

theorem writeCsr_even (s : State) (v : Word) :
    writeCsr s .even v = if v.toNat < 2 ^ 4 then .ok (s.setEven (v.extractLsb' 0 4)) else .error .param :=
  if_congr (extractLsb'_high_eq_zero_iff v rfl) rfl rfl

/-- Settles O38: a legal value passes its register's one test. -/
theorem csrWriteStoresLegalValue : Obligations.CsrWriteStoresLegalValue := by
  refine fun s v => ⟨?_, ?_, ?_, fun h => ?_, fun h => ?_, fun h => ?_, fun h => ?_⟩
  · rintro rfl; exact exec_csrWrite_of_ok rfl (writeCsr_mode_bits s .transparent)
  · rintro rfl; exact exec_csrWrite_of_ok rfl (writeCsr_mode_bits s .command)
  · rintro rfl; exact exec_csrWrite_of_ok rfl (writeCsr_mode_bits s .binary)
  · exact exec_csrWrite_of_ok rfl ((writeCsr_aten s v).trans (if_pos h))
  · exact exec_csrWrite_of_ok rfl ((writeCsr_pktpay s v).trans (if_pos h))
  · exact exec_csrWrite_of_ok rfl ((writeCsr_term s v).trans (if_pos h))
  · exact exec_csrWrite_of_ok rfl ((writeCsr_even s v).trans (if_pos h))

/-- Settles O39: an illegal value fails its register's one test, and PARAM is answered on the state as it was. -/
theorem csrWriteRejectsIllegalValue : Obligations.CsrWriteRejectsIllegalValue := by
  refine fun s v => ⟨fun h => ?_, fun h => ?_, fun h => ?_, fun h => ?_, fun h => ?_⟩
  · exact exec_csrWrite_of_error rfl (writeCsr_mode_of_three_le s h)
  · exact exec_csrWrite_of_error rfl ((writeCsr_aten s v).trans (if_neg h.not_gt))
  · exact exec_csrWrite_of_error rfl ((writeCsr_pktpay s v).trans (if_neg h.not_gt))
  · exact exec_csrWrite_of_error rfl ((writeCsr_term s v).trans (if_neg h.not_gt))
  · exact exec_csrWrite_of_error rfl ((writeCsr_even s v).trans (if_neg h.not_gt))

theorem and_not_eq_ite (a b : Bool) : (a && !b) = if b = true then false else a := by cases a <;> cases b <;> rfl

theorem writeCsr_status (s : State) (v : Word) :
    writeCsr s .status v =
      if v.extractLsb' 2 30 = 0 then
        .ok ((s.setOvf (if v.getLsbD 0 = true then false else s.ovf)).setPerr (if v.getLsbD 1 = true then false else s.perr))
      else .error .param := by
  simp only [writeCsr, statusW1C, and_not_eq_ite]

/-- Settles O41: the two branches of the write of STATUS, each flag kept or cleared by its own bit. -/
theorem statusWriteOneToClear : Obligations.StatusWriteOneToClear := fun s v =>
  ⟨fun h => exec_csrWrite_of_ok rfl ((writeCsr_status s v).trans (if_pos h)),
    fun h => exec_csrWrite_of_error rfl ((writeCsr_status s v).trans (if_neg h))⟩

/-! ### What reads ATEN (R214) -/

/-- A meaning that neither reads nor writes ATEN: it does the same under any value of it, and leaves that value. -/
def IgnoresAten (meaning : State → Result) : Prop :=
  ∀ (s : State) (v : Bool), meaning (s.setAten v) = mapNext (·.setAten v) (meaning s)

theorem deliver_ignoresAten (b : RingId) (n : Nat) : IgnoresAten (deliver · b n) := by
  intro s v
  simp only [deliver, State.pop, State.setAten_ring, State.setAten_depth]
  cases (s.ring b).peek (s.depth b) n with
  | error f => rfl
  | ok p => cases (s.ring b).drop n <;> cases b <;> rfl

theorem execInit_ignoresAten (ic : Half) (opa : Word) : IgnoresAten (execInit ic opa) := by
  intro s v
  simp only [execInit, State.setAten_depth]
  split <;> rfl

theorem csr_ne_of_csrOf {r : Byte} {c d : Csr} (h : csrOf r = some c) (hr : r ≠ d.num) : c ≠ d :=
  fun hc => hr (hc ▸ csrOf_eq_some h)

theorem State.setAten_csrValue {c : Csr} (hc : c ≠ .aten) (s : State) (v : Bool) :
    (s.setAten v).csrValue c = s.csrValue c := by
  cases c
  case aten => exact absurd rfl hc
  all_goals rfl

theorem execCsrRead_ignoresAten {r : Byte} (hr : r ≠ Csr.aten.num) : IgnoresAten (execCsrRead r) := by
  intro s v
  unfold execCsrRead
  cases h : csrOf r with
  | none => rfl
  | some c =>
    simp only [State.setAten_csrValue (csr_ne_of_csrOf h hr)]
    rfl

theorem writeCsr_setAten {c : Csr} (hc : c ≠ .aten) (s : State) (v : Bool) (w : Word) :
    writeCsr (s.setAten v) c w = (writeCsr s c w).map (·.setAten v) := by
  cases c <;> simp only [writeCsr, statusW1C]
  case aten => exact absurd rfl hc
  case mode =>
    split
    · split <;> rfl
    · rfl
  case pktdef | pktpay | term | even | status => split <;> rfl
  all_goals rfl

theorem execCsrWrite_ignoresAten {r : Byte} (hr : r ≠ Csr.aten.num) (w : Word) : IgnoresAten (execCsrWrite r w) := by
  intro s v
  unfold execCsrWrite
  cases h : csrOf r with
  | none => rfl
  | some c =>
    simp only [writeCsr_setAten (csr_ne_of_csrOf h hr)]
    cases writeCsr s c w <;> rfl

theorem execBufPush_ignoresAten (d : List Byte) : IgnoresAten (execBufPush d) := by
  intro s v
  simp only [execBufPush, State.setAten_outRing, State.setAten_depth]
  split
  · rfl
  split <;> rfl

theorem execBufPop_ignoresAten (b : RingId) (n : Half) : IgnoresAten (execBufPop b n) := by
  intro s v
  simp only [execBufPop, State.setAten_ring]
  split
  · rfl
  · exact deliver_ignoresAten b n.toNat s v

theorem execBufPeek_ignoresAten (b : RingId) (n : Half) : IgnoresAten (execBufPeek b n) := by
  intro s v
  simp only [execBufPeek, State.setAten_ring, State.setAten_depth]
  split
  · rfl
  split <;> rfl

theorem execBufDiscard_ignoresAten (b : RingId) (n : Half) : IgnoresAten (execBufDiscard b n) := by
  intro s v
  simp only [execBufDiscard, State.setAten_ring]
  split
  · rfl
  split
  · cases b <;> rfl
  · rfl

/-- Two states that differ in ATEN alone agree on all that a read command reads. -/
theorem exec_read_ignoresAten {i : Instr} (hi : IsRead i) : IgnoresAten (exec i) := by
  intro s v
  have hsame : s.SameForReads (s.setAten v) := ⟨rfl, rfl, rfl, rfl, rfl⟩
  rcases exec_sameResult hsame hi with ⟨f, hx, hy⟩ | ⟨q, o, hx, hy⟩ <;> rw [hx, hy] <;> rfl

theorem execRx_ignoresAten (d : List Byte) : IgnoresAten (execRx d) := by
  intro s v
  simp only [execRx, State.setAten_ovf, State.setAten_inRing, State.setAten_depth]
  split
  · rfl
  split
  · rfl
  split
  · rfl
  split <;> rfl

theorem rejectTxn_ignoresAten (r : Reject) : IgnoresAten (rejectTxn r) := by
  intro s v
  cases r <;> rfl

/-- No instruction but CSR_READ and CSR_WRITE of ATEN reads or writes it. -/
theorem exec_ignoresAten {i : Instr} (hread : i ≠ .csrRead 0x01) (hwrite : ∀ w, i ≠ .csrWrite 0x01 w) :
    IgnoresAten (exec i) := by
  cases i with
  | init ic opa => exact execInit_ignoresAten ic opa
  | csrRead r => exact execCsrRead_ignoresAten fun hr => hread (congrArg Instr.csrRead hr)
  | csrWrite r w => exact execCsrWrite_ignoresAten (fun hr => hwrite w (congrArg (Instr.csrWrite · w) hr)) w
  | bufPush d => exact execBufPush_ignoresAten d
  | bufPop b n => exact execBufPop_ignoresAten b n
  | bufPeek b n => exact execBufPeek_ignoresAten b n
  | bufDiscard b n => exact execBufDiscard_ignoresAten b n
  | readRaw n => exact exec_read_ignoresAten ⟨n, .inl rfl⟩
  | readPkt n => exact exec_read_ignoresAten ⟨n, .inr (.inl rfl)⟩
  | readCmd n => exact exec_read_ignoresAten ⟨n, .inr (.inr rfl)⟩
  | rx d => exact execRx_ignoresAten d

/-- A turn takes the same transaction and leaves ATEN. -/
theorem State.setAten_turn (s : State) (v : Bool) : (s.setAten v).turn = (s.turn.1, s.turn.2.setAten v) := by
  simp only [State.turn, State.setAten_schedule, State.setAten_commands, State.setAten_spans]
  split
  · rfl
  · split <;> rfl
  · split <;> rfl
  · rfl

/-- Settles O44: the turn takes the same transaction under either value, and what follows (nothing, a rejection or an
instruction) ignores ATEN. -/
theorem atenHasNoEffect : Obligations.AtenHasNoEffect := by
  intro s v h
  change step (s.setAten v) = mapNext (·.setAten v) (step s)
  have hturn' := s.setAten_turn v
  rcases hturn : s.turn with ⟨x, s'⟩
  rw [hturn] at hturn' h
  cases x with
  | none => rw [step_of_turn_none hturn, step_of_turn_none hturn']; rfl
  | some x =>
    obtain ⟨hread, hwrite⟩ := h x rfl
    cases hdec : decode x with
    | error r =>
      rw [step_of_turn_error hturn hdec, step_of_turn_error hturn' hdec]
      exact rejectTxn_ignoresAten r s' v
    | ok i =>
      rw [step_of_turn_ok hturn hdec, step_of_turn_ok hturn' hdec]
      exact exec_ignoresAten (fun hi => hread (hi ▸ hdec)) (fun w hi => hwrite w (hi ▸ hdec)) s' v

end Sys2Proof.Machine
end

section
/-! PROOFS. The statements of spec/60_exceptions.md: an error changes nothing (O47), and a transaction emits at most one
event, which is enabled (O48). -/

namespace Sys2Proof.Machine

/-! ### The one output of a consumer transaction (R242, R246) -/

/-- A consumer transaction that completes responds and emits nothing, and an error leaves the state its turn found: the part
of `statusCodesReturned` that R242 and R246 speak of. -/
theorem step_consumer_output {s s' t : State} {c : FormatC} (hturn : s.turn = (some (.consumer c), s'))
    (h : step s = .next t) :
    ∃ r : Response, t.trace = s'.trace ++ [{ response := some r, events := [] }] ∧
      (r.st ≠ 0 → { t with trace := s'.trace } = s') := by
  obtain ⟨r, htrace, -, herr, -⟩ := statusCodesReturned.2 s s' t c hturn h
  exact ⟨r, htrace, fun h0 => (herr h0).2⟩

/-! ### A producer transaction (R100, R160, R246) -/

/-- A producer transaction that completes: RX under a well-formed header, PERR set under a malformed one. -/
theorem step_producer_cases {s s' t : State} {p : FormatP} (hturn : s.turn = (some (.producer p), s'))
    (h : step s = .next t) :
    prefixField p.ph = 0x4000 ∧ execRx p.data s' = .next t ∨
    prefixField p.ph ≠ 0x4000 ∧ t = (s'.setPerr true).produced [] := by
  rcases decode_producer_cases p with ⟨-, hdec⟩ | ⟨-, hpre, hdec⟩ | ⟨-, hpre, hdec⟩
  · rw [step_of_turn_error hturn hdec] at h
    cases h
  · rw [step_of_turn_error hturn hdec] at h
    cases h
    exact .inr ⟨hpre, rfl⟩
  · rw [step_of_turn_ok hturn hdec] at h
    exact .inl ⟨hpre, h⟩

/-- RX's one output: at most one event, its EVEN bit 1. -/
theorem execRx_output {d : List Byte} {s t : State} (h : execRx d s = .next t) :
    ∃ evs, t.trace = s.trace ++ [{ response := none, events := evs }] ∧ evs.length ≤ 1 ∧
      ∀ e ∈ evs, s.even.getLsbD e.id = true := by
  rcases execRx_cases h with ⟨-, rfl⟩ | ⟨-, -, rfl⟩ | ⟨q, -, -, -, -, rfl⟩
  · exact ⟨[], rfl, by simp⟩
  · refine ⟨s.emit .ovf, rfl, s.emit_length_le .ovf, fun e he => ?_⟩
    obtain ⟨rfl, heven⟩ := State.mem_emit.1 he
    exact heven
  · exact ⟨dispatchEvent s d, by simp, dispatchEvent_enabled⟩

/-- A producer transaction's one output: no response, and the events of RX or none. -/
theorem step_producer_output {s s' t : State} {p : FormatP} (hturn : s.turn = (some (.producer p), s'))
    (h : step s = .next t) :
    ∃ evs, t.trace = s'.trace ++ [{ response := none, events := evs }] ∧ evs.length ≤ 1 ∧
      ∀ e ∈ evs, s'.even.getLsbD e.id = true := by
  rcases step_producer_cases hturn h with ⟨-, he⟩ | ⟨-, rfl⟩
  · exact execRx_output he
  · exact ⟨[], rfl, by simp⟩

/-! ### Errors are precise (R242) -/

/-- The RX that sets OVF changes nothing else: a dropped or empty span and a push both leave OVF. -/
theorem execRx_of_sets_ovf {d : List Byte} {s t : State} (h : execRx d s = .next t) (h0 : s.ovf = false)
    (h1 : t.ovf = true) : t = (s.setOvf true).produced (s.emit .ovf) := by
  rcases execRx_cases h with ⟨-, rfl⟩ | ⟨-, -, rfl⟩ | ⟨q, -, -, -, -, rfl⟩
  · simp [h0] at h1
  · rfl
  · simp [h0] at h1

/-- Settles O47: the consumer's answer by `step_consumer_output`; on the producer port a well-formed header is RX, whose
overflow is `execRx_of_sets_ovf` and whose drop is `execRx_of_ovf`, and a malformed one sets PERR alone. -/
theorem errorsArePrecise : Obligations.ErrorsArePrecise := by
  refine ⟨fun s s' t c o r hturn h ht ho hr => ?_, fun s s' t p hturn h => ?_⟩
  · obtain ⟨r', htrace, herr⟩ := step_consumer_output hturn h
    obtain rfl : _ = o := by simpa [htrace] using ht
    obtain rfl := Option.some.inj ho
    exact ⟨rfl, herr hr⟩
  · have hovf : s'.ovf = s.ovf := by
      obtain ⟨-, -, -, -, -, -, -, -, -, hovf, -⟩ := s.turn_block
      rwa [hturn] at hovf
    rcases step_producer_cases hturn h with ⟨hpre, he⟩ | ⟨hpre, rfl⟩
    · refine ⟨fun h0 h1 => ?_, fun _ h1 => ?_, fun hne => absurd hpre hne⟩
      · obtain rfl := execRx_of_sets_ovf he (hovf.trans h0) h1
        rfl
      · rw [execRx_of_ovf p.data (hovf.trans h1)] at he
        cases he
        rfl
    · refine ⟨fun h0 h1 => ?_, fun heq => absurd heq hpre, fun _ => rfl⟩
      simp [hovf, h0] at h1

/-! ### At most one event, enabled (R245, R246) -/

/-- Settles O48: the output of either port's transaction (`step_consumer_output`, `step_producer_output`); its turn leaves
the trace and EVEN. -/
theorem atMostOneEnabledEvent : Obligations.AtMostOneEnabledEvent := by
  intro s s' t x hturn h
  obtain ⟨heven, htrace⟩ : s'.even = s.even ∧ s'.trace = s.trace := by
    obtain ⟨-, -, -, -, -, -, -, -, heven, -, -, htrace⟩ := s.turn_block
    rw [hturn] at heven htrace
    exact ⟨heven, htrace⟩
  rw [← heven, ← htrace]
  cases x with
  | consumer c =>
    obtain ⟨r, hout, -⟩ := step_consumer_output hturn h
    exact ⟨_, hout, by simp⟩
  | producer p =>
    obtain ⟨evs, hout, hlen, henabled⟩ := step_producer_output hturn h
    exact ⟨_, hout, hlen, henabled, by simp, fun _ _ => rfl⟩

end Sys2Proof.Machine
end

section
/-! PROOFS. The statements of spec/70_reset_and_hazards.md: the values after power-on reset (O1), a register written is the
register read (O42), and INIT is atomic with RX (O58). -/

namespace Sys2Proof.Machine

/-! ### Power-on reset (R270, R271) -/

theorem State.powerOn_ring (p : Params) (b : RingId) : (State.powerOn p).ring b = Ring.empty := by
  cases b <;> rfl

theorem Ring.free_eq_zero_of_cap_eq_zero {r : Ring} (h : r.cap = 0) : r.free = 0 := by
  simp [Ring.free, h]

/-- Settles O1: both rings are `Ring.empty`; a ring of capacity 0 has no free space, so a non-empty span overflows. -/
theorem powerOnValues : Obligations.PowerOnValues := by
  refine ⟨fun p => ⟨rfl, fun b => ?_, rfl, rfl, rfl, rfl, rfl, rfl, rfl, rfl⟩, fun s d hcap ho hd => ?_⟩
  · rw [State.powerOn_ring]
    exact ⟨rfl, rfl, rfl, rfl⟩
  · have hfree : s.inRing.free < d.length :=
      (Ring.free_eq_zero_of_cap_eq_zero hcap).trans_lt (List.length_pos_iff.2 hd)
    exact ⟨_, execRx_of_free_lt ho hd hfree, rfl, rfl⟩

/-! ### A register written is the register read (R211, R212, R279) -/

/-- A word whose bits from `k` up are 0 is its low `k` bits, zero-extended. -/
theorem setWidth_extractLsb'_of_high_eq_zero {w : Nat} {v : BitVec w} {k n : Nat} (h : k + n = w)
    (hv : v.extractLsb' k n = 0) : (v.extractLsb' 0 k).setWidth w = v := by
  have hlt : v.toNat < 2 ^ k := (extractLsb'_high_eq_zero_iff v h).1 hv
  apply BitVec.eq_of_toNat_eq
  simp [Nat.mod_eq_of_lt hlt]

@[simp] theorem State.answer_csrValue (s : State) (st : Status) (res : Word) (dout : List Byte) (c : Csr) :
    (s.answer st res dout).csrValue c = s.csrValue c := by
  cases c <;> rfl

/-- STATUS apart, whose 1 bits clear (R213), a register reads as the value written to it. -/
theorem writeCsr_csrValue {s t : State} {c : Csr} {v : Word} (hw : writeCsr s c v = .ok t) (hc : c ≠ .status) :
    t.csrValue c = v := by
  rcases writeCsr_cases hw with ⟨m, rfl, hv, hm, rfl⟩ | ⟨rfl, hv, rfl⟩ | ⟨d, rfl, hd, rfl⟩ | ⟨rfl, hv, rfl⟩ |
    ⟨rfl, hv, rfl⟩ | ⟨rfl, hv, rfl⟩ | ⟨rfl, -, -⟩
  · calc
      m.bits.setWidth 32 = (v.extractLsb' 0 2).setWidth 32 := by rw [SerialMode.bits_of_ofBits hm]
      _ = v := setWidth_extractLsb'_of_high_eq_zero rfl hv
  · calc
      (BitVec.ofBool (v.getLsbD 0)).setWidth 32 = (v.extractLsb' 0 1).setWidth 32 := by
        rw [← BitVec.setWidth_one, BitVec.setWidth_eq_extractLsb' (v := 32) (w := 1) (by decide)]
      _ = v := setWidth_extractLsb'_of_high_eq_zero rfl hv
  · exact PacketDef.word_of_ofWord hd
  · exact setWidth_extractLsb'_of_high_eq_zero rfl hv
  · exact setWidth_extractLsb'_of_high_eq_zero rfl hv
  · exact setWidth_extractLsb'_of_high_eq_zero rfl hv
  · exact absurd rfl hc

/-- A CSR_WRITE answered OK has written a register: its rejections answer another status. -/
theorem execCsrWrite_of_answered_ok {r : Byte} {v : Word} {s t : State} (he : execCsrWrite r v s = .next t)
    (ht : t.trace = s.trace ++ [{ response := some { st := 0, res := 0, dout := [] }, events := [] }]) :
    ∃ c s', csrOf r = some c ∧ writeCsr s c v = .ok s' ∧ t = s'.answer .ok 0 [] := by
  rcases execCsrWrite_cases he with rfl | rfl | hwrite
  · simp at ht
  · simp at ht
  · exact hwrite

/-- Settles O42: a register numbered at most 5 is not STATUS, so it reads as the value written (`writeCsr_csrValue`). -/
theorem csrWriteThenRead : Obligations.CsrWriteThenRead := by
  intro s t r v hr he ht
  obtain ⟨c, s', hc, hw, rfl⟩ := execCsrWrite_of_answered_ok he ht
  obtain rfl := csrOf_eq_some hc
  have hstatus : c ≠ .status := by rintro rfl; exact absurd hr (by decide)
  exact exec_csrRead_num _ c ((s'.answer_csrValue .ok 0 [] c).trans (writeCsr_csrValue hw hstatus))

/-! ### INIT and RX in either order (R160, R210, R282) -/

theorem Ring.free_eq_cap_of_held_eq_nil {r : Ring} (h : r.held = []) : r.free = r.cap.toNat := by
  have hocc : r.occ.toNat = 0 := by rw [← r.held_length, h, List.length_nil]
  rw [Ring.free, hocc, Nat.sub_zero]

/-- RX of a span that fits an empty IN, on a READY link under TRANSPARENT: IN then holds the span alone, and a non-empty span
emits EV_RAW under its enable. -/
theorem execRx_of_empty_transparent {s : State} {d : List Byte} (hs : s.Inv) (ho : s.ovf = false)
    (hm : s.mode = .transparent) (hempty : s.held .input = []) (hd : d.length ≤ s.inRing.cap.toNat) :
    ∃ u, execRx d s = .next u ∧ u.held .input = d ∧ u.inRing.rd = s.inRing.rd ∧ u.ovf = false ∧
      u.trace = s.trace ++
        [{ response := none, events := if d ≠ [] ∧ s.even.getLsbD 0 = true then [.raw] else [] }] := by
  by_cases hnil : d = []
  · subst hnil
    exact ⟨_, execRx_nil s, hempty, rfl, ho, by simp⟩
  · have hfree : d.length ≤ s.inRing.free := by
      rwa [Ring.free_eq_cap_of_held_eq_nil (r := s.inRing) hempty]
    obtain ⟨q, hq, -, -, hrd, -, -, hheld, -⟩ := hs.inRing.push_spec hfree
    refine ⟨_, execRx_of_push ho hnil hfree hq, ?_, hrd, ho, ?_⟩
    · exact hheld.trans (congrArg (· ++ d) hempty)
    · simp [dispatchEvent_transparent d hm, State.emit, Event.id, hnil]

/-- Settles O58: INIT empties both rings whatever RX left, which is of the same depths; and the ring it leaves IN as is empty
and of capacity `ic`, so RX after it is `execRx_of_empty_transparent`. -/
theorem initIsAtomicWithRx : Obligations.InitIsAtomicWithRx := by
  intro s ic opa d hs hd h0 hic hoc
  refine ⟨?_, ?_⟩
  · obtain ⟨t, ht⟩ := exec_completes hs (.rx d)
    rw [← (exec_inputs ht).1] at hic hoc
    exact ⟨t, _, ht, execInit_of_le_depth h0 hic hoc, rfl, rfl, rfl, rfl⟩
  · have hinit : exec (.init ic opa) s = _ := execInit_of_le_depth h0 hic hoc
    obtain ⟨u, hrx, hheld, hrd, hovf, htrace⟩ :=
      execRx_of_empty_transparent (exec_inv hs hinit) rfl rfl rfl hd
    exact ⟨_, u, hinit, hrx, rfl, hheld, hrd, hovf, htrace⟩

end Sys2Proof.Machine
end
